-- ==== Sys2Proof/Config.lean ====
section
/-! DEFINITION. The parameter table of keth CORE (spec 00_scope.md R6). All are constants of the
hardware: reset does not load them and no command changes them (70_reset_and_hazards.md R232).
The spec leaves no value free (93_implementation_defined.md), so no constant here is opaque. -/

namespace Sys2Proof.Config

/-- Host ceiling: a Uint is in the domain iff it is below `B` (R6, R12).
DESIGN CHOICE (log entry 8): R6 lets a model vary `B` between 2^248 and 2^252; this is the
table's own value. -/
abbrev B : Nat := 2 ^ 252

/-- The largest bit length BITLEN may return (R6). -/
abbrev BLMAX : Nat := 252

/-- `boundedMax` of DIVMOD128 and of both divisions of TAYLOR (R6, R100). -/
abbrev BOUND128 : Nat := 2 ^ 128

/-- `boundedMax` of DIVMOD192 (R6, R100). -/
abbrev BOUND192 : Nat := 2 ^ 192

/-- Saturation threshold of TAYLOR (R6). -/
abbrev SAT : Nat := 2 ^ 128

/-- Longest byte sequence UINT_FROM_BE accepts (R6). -/
abbrev MAXLEN_UINT : Nat := 31

/-- Longest byte sequence U64_FROM_BE accepts (R6). -/
abbrev MAXLEN_U64 : Nat := 8

/-- Longest byte sequence U256_FROM_BE accepts, and the length of a Bytes32 (R6, 20_memory.md R41). -/
abbrev CAP_U256 : Nat := 32

/-- Length of a Bytes20 (R6). -/
abbrev CAP_ADDR : Nat := 20

/-- Longest byte sequence of the U384 codec (R6). -/
abbrev CAP_U384 : Nat := 48

/-- Lanes of a slot: the longest byte sequence a slot can carry (20_memory.md R40). -/
abbrev LANES : Nat := 48

end Sys2Proof.Config
end

