-- ==== Sys2Proof/Word.lean ====
section
/-! DEFINITION. The fixed widths of keth CORE: bytes, slots, operand fields and frames
(spec 30_encoding.md R60, R61, R64 to R67; 00_scope.md R6, R12). -/

namespace Sys2Proof

/-- One byte, and one lane of a slot (00_scope.md R9, R15). -/
abbrev Byte := BitVec 8

/-- An operand or result slot of a frame, `SLOT` = 384 bits (00_scope.md R6). -/
abbrev Slot := BitVec 384

/-- The field that carries a Uint, `UW` = 256 bits. It is wider than the domain on purpose
(30_encoding.md R64): a value from `B` on can be presented. -/
abbrev UintField := BitVec 256

/-- A U256: two 128-bit limbs, least significant first, every pattern valid (30_encoding.md R65). -/
abbrev U256 := BitVec 256

/-- A U384: four 96-bit limbs, least significant first, every pattern valid (30_encoding.md R66). -/
abbrev U384 := BitVec 384

/-- A command frame (30_encoding.md R60). -/
abbrev CommandFrame := BitVec 1168

/-- A response frame (30_encoding.md R60, R61). -/
abbrev ResponseFrame := BitVec 784

end Sys2Proof
end

