-- ==== Sys2Proof/Syntax.lean ====
section
/-! DEFINITION. The operations of keth CORE as syntax: one constructor of `Instr` per row of
spec/opcode_table.json (30_encoding.md R70), carrying exactly the fields its operand format reads
(30_encoding.md R71). -/

namespace Sys2Proof

/-- The operand formats (30_encoding.md R71). -/
inductive Format where
  | U | UU | UUU | W | WW | X | XX | XL | S | S32 | S20
  deriving DecidableEq, Repr

/-- The names of the 31 operations (30_encoding.md R70). -/
inductive Opcode where
  | divmod128 | divmod192 | umin | umax
  | ceil32 | bitlen | uintFromBe | u64FromBe
  | u256FromBe32 | u256ToBe32 | u256FromLe32 | u256ToLe32
  | u256FromBe20 | u256ToBe20 | u256FromBe | u256Add
  | u256Addc | u256Sub | u256Mul | u256Le
  | u256Min | u256Max | u256Eq | u256FromUint
  | u256ToUint | u384Iszero | u384Isone | u384FromBe
  | u384ToBe | u384Eq | taylor
  deriving DecidableEq, Repr

/-- One command, its operands as its format reads them. A format S operand is the pair of the
byte count `len` and the sequence `bytes` that stands in the slot (R71, R72). -/
inductive Instr where
  /-- DIVMOD128, checked division, bound 2^128 (40_divmod.md R101). -/
  | divmod128 (value div : UintField)
  /-- DIVMOD192, checked division, bound 2^192 (40_divmod.md R102). -/
  | divmod192 (value div : UintField)
  /-- UMIN, the lesser of two Uints (41_comparators.md R110). -/
  | umin (a b : UintField)
  /-- UMAX, the greater of two Uints (41_comparators.md R111). -/
  | umax (a b : UintField)
  /-- CEIL32, round up to a multiple of 32 (42_uint_helpers.md R120). -/
  | ceil32 (value : UintField)
  /-- BITLEN, the bit-length counter (42_uint_helpers.md R121). -/
  | bitlen (value : UintField)
  /-- UINT_FROM_BE, decode at most 31 big-endian bytes (42_uint_helpers.md R122). -/
  | uintFromBe (len : Byte) (bytes : List Byte)
  /-- U64_FROM_BE, decode at most 8 big-endian bytes (42_uint_helpers.md R123). -/
  | u64FromBe (len : Byte) (bytes : List Byte)
  /-- U256_FROM_BE32, decode 32 big-endian bytes (43_u256_codec.md R130). -/
  | u256FromBe32 (bytes : List Byte)
  /-- U256_TO_BE32, encode as 32 big-endian bytes (43_u256_codec.md R131). -/
  | u256ToBe32 (m : U256)
  /-- U256_FROM_LE32, decode 32 little-endian bytes (43_u256_codec.md R132). -/
  | u256FromLe32 (bytes : List Byte)
  /-- U256_TO_LE32, encode as 32 little-endian bytes (43_u256_codec.md R133). -/
  | u256ToLe32 (m : U256)
  /-- U256_FROM_BE20, decode a 20-byte address (43_u256_codec.md R134). -/
  | u256FromBe20 (bytes : List Byte)
  /-- U256_TO_BE20, encode as a 20-byte address (43_u256_codec.md R135). -/
  | u256ToBe20 (m : U256)
  /-- U256_FROM_BE, decode at most 32 big-endian bytes (43_u256_codec.md R136). -/
  | u256FromBe (len : Byte) (bytes : List Byte)
  /-- U256_ADD, checked addition (44_u256_arith.md R150). -/
  | u256Add (a b : U256)
  /-- U256_ADDC, addition with the carry as a result (44_u256_arith.md R151). -/
  | u256Addc (a b : U256)
  /-- U256_SUB, checked subtraction (44_u256_arith.md R152). -/
  | u256Sub (a b : U256)
  /-- U256_MUL, checked multiplication (44_u256_arith.md R153). -/
  | u256Mul (a b : U256)
  /-- U256_LE, the order test (44_u256_arith.md R154). -/
  | u256Le (a b : U256)
  /-- U256_MIN, the lesser of two U256 (44_u256_arith.md R155). -/
  | u256Min (a b : U256)
  /-- U256_MAX, the greater of two U256 (44_u256_arith.md R156). -/
  | u256Max (a b : U256)
  /-- U256_EQ, equality of two U256 (44_u256_arith.md R157). -/
  | u256Eq (a b : U256)
  /-- U256_FROM_UINT, widen a Uint (44_u256_arith.md R158). -/
  | u256FromUint (v : UintField)
  /-- U256_TO_UINT, narrow to a Uint (44_u256_arith.md R159). -/
  | u256ToUint (m : U256)
  /-- U384_ISZERO, test for zero (45_u384.md R170). -/
  | u384Iszero (x : U384)
  /-- U384_ISONE, test for one (45_u384.md R171). -/
  | u384Isone (x : U384)
  /-- U384_FROM_BE, decode at most 48 big-endian bytes (45_u384.md R172). -/
  | u384FromBe (len : Byte) (bytes : List Byte)
  /-- U384_TO_BE, encode as `len` big-endian bytes (45_u384.md R173). -/
  | u384ToBe (x : U384) (len : Byte)
  /-- U384_EQ, equality of two U384 (45_u384.md R174). -/
  | u384Eq (x y : U384)
  /-- TAYLOR, the saturating series evaluator (46_taylor.md R190). -/
  | taylor (factor numerator denominator : UintField)
  deriving DecidableEq, Repr

/-- The operation of a command. -/
def Instr.opcode : Instr → Opcode
  | .divmod128 _ _ => .divmod128
  | .divmod192 _ _ => .divmod192
  | .umin _ _ => .umin
  | .umax _ _ => .umax
  | .ceil32 _ => .ceil32
  | .bitlen _ => .bitlen
  | .uintFromBe _ _ => .uintFromBe
  | .u64FromBe _ _ => .u64FromBe
  | .u256FromBe32 _ => .u256FromBe32
  | .u256ToBe32 _ => .u256ToBe32
  | .u256FromLe32 _ => .u256FromLe32
  | .u256ToLe32 _ => .u256ToLe32
  | .u256FromBe20 _ => .u256FromBe20
  | .u256ToBe20 _ => .u256ToBe20
  | .u256FromBe _ _ => .u256FromBe
  | .u256Add _ _ => .u256Add
  | .u256Addc _ _ => .u256Addc
  | .u256Sub _ _ => .u256Sub
  | .u256Mul _ _ => .u256Mul
  | .u256Le _ _ => .u256Le
  | .u256Min _ _ => .u256Min
  | .u256Max _ _ => .u256Max
  | .u256Eq _ _ => .u256Eq
  | .u256FromUint _ => .u256FromUint
  | .u256ToUint _ => .u256ToUint
  | .u384Iszero _ => .u384Iszero
  | .u384Isone _ => .u384Isone
  | .u384FromBe _ _ => .u384FromBe
  | .u384ToBe _ _ => .u384ToBe
  | .u384Eq _ _ => .u384Eq
  | .taylor _ _ _ => .taylor

/-- The operand format of each operation, the fourth column of 30_encoding.md R70. -/
def Opcode.format : Opcode → Format
  | .divmod128 => .UU
  | .divmod192 => .UU
  | .umin => .UU
  | .umax => .UU
  | .ceil32 => .U
  | .bitlen => .U
  | .uintFromBe => .S
  | .u64FromBe => .S
  | .u256FromBe32 => .S32
  | .u256ToBe32 => .W
  | .u256FromLe32 => .S32
  | .u256ToLe32 => .W
  | .u256FromBe20 => .S20
  | .u256ToBe20 => .W
  | .u256FromBe => .S
  | .u256Add => .WW
  | .u256Addc => .WW
  | .u256Sub => .WW
  | .u256Mul => .WW
  | .u256Le => .WW
  | .u256Min => .WW
  | .u256Max => .WW
  | .u256Eq => .WW
  | .u256FromUint => .U
  | .u256ToUint => .W
  | .u384Iszero => .X
  | .u384Isone => .X
  | .u384FromBe => .S
  | .u384ToBe => .XL
  | .u384Eq => .XX
  | .taylor => .UUU

end Sys2Proof
end

