-- ==== Sys2Proof/WellFormed.lean ====
section
/-! DEFINITION. When a term of `Instr` is a command a frame can carry: a byte sequence has the
length its format gives it (spec 30_encoding.md R71, 20_memory.md R40, R41). Every other operand is
a bit-field of its exact width, so every pattern of it is valid (00_scope.md R13). -/

namespace Sys2Proof

/-- The length of the sequence that format S reads: `len` lanes when `len` is at most 48, and no
lane at all above that (30_encoding.md R71). -/
def seqLength (len : Byte) : Nat :=
  if len.toNat ≤ Config.LANES then len.toNat else 0

/-- The sequence of a format S operand has the length that `len` announces. -/
def sequenceFits (len : Byte) (bytes : List Byte) : Bool :=
  bytes.length == seqLength len

/-- The check of 30_encoding.md R71 on each operation's operands. -/
def Instr.wellFormed : Instr → Bool
  | .divmod128 _ _ => true
  | .divmod192 _ _ => true
  | .umin _ _ => true
  | .umax _ _ => true
  | .ceil32 _ => true
  | .bitlen _ => true
  | .uintFromBe len bytes => sequenceFits len bytes
  | .u64FromBe len bytes => sequenceFits len bytes
  | .u256FromBe32 bytes => bytes.length == Config.CAP_U256
  | .u256ToBe32 _ => true
  | .u256FromLe32 bytes => bytes.length == Config.CAP_U256
  | .u256ToLe32 _ => true
  | .u256FromBe20 bytes => bytes.length == Config.CAP_ADDR
  | .u256ToBe20 _ => true
  | .u256FromBe len bytes => sequenceFits len bytes
  | .u256Add _ _ => true
  | .u256Addc _ _ => true
  | .u256Sub _ _ => true
  | .u256Mul _ _ => true
  | .u256Le _ _ => true
  | .u256Min _ _ => true
  | .u256Max _ _ => true
  | .u256Eq _ _ => true
  | .u256FromUint _ => true
  | .u256ToUint _ => true
  | .u384Iszero _ => true
  | .u384Isone _ => true
  | .u384FromBe len bytes => sequenceFits len bytes
  | .u384ToBe _ _ => true
  | .u384Eq _ _ => true
  | .taylor _ _ _ => true

end Sys2Proof
end

