-- ==== Sys2Proof/Decode.lean ====
section
/-! DEFINITION. Command frames: their fields, the decoder, total on every 1168-bit pattern and
refusing an illegal `op` by name, and the encoder (spec 30_encoding.md R60, R63 to R74;
20_memory.md R40). -/

namespace Sys2Proof

/-! ### The fields of a command frame (R60) -/

/-- `op` = cmd[7:0]. -/
def CommandFrame.op (f : CommandFrame) : Byte := f.extractLsb' 0 8

/-- `len` = cmd[15:8]. -/
def CommandFrame.len (f : CommandFrame) : Byte := f.extractLsb' 8 8

/-- Slot `A` = cmd[399:16]. -/
def CommandFrame.slotA (f : CommandFrame) : Slot := f.extractLsb' 16 384

/-- Slot `B_` = cmd[783:400]. -/
def CommandFrame.slotB (f : CommandFrame) : Slot := f.extractLsb' 400 384

/-- Slot `C` = cmd[1167:784]. -/
def CommandFrame.slotC (f : CommandFrame) : Slot := f.extractLsb' 784 384

/-- The frame with these fields (R60). -/
def CommandFrame.ofFields (op len : Byte) (a b c : Slot) : CommandFrame :=
  BitVec.cast rfl (c ++ b ++ a ++ len ++ op)

/-! ### Values in a slot -/

/-- `uint(X)` = X[255:0]; the bits above are ignored (R64). -/
def uintOf (x : Slot) : UintField := x.extractLsb' 0 256

/-- `u256(X)` = X[255:0]; the bits above are ignored (R65). -/
def u256Of (x : Slot) : U256 := x.extractLsb' 0 256

/-- `u384(X)`, the whole slot (R66). -/
def u384Of (x : Slot) : U384 := x

/-- Lane `k` of a slot, bits 8k+7 to 8k (00_scope.md R15). -/
def laneOf (x : Slot) (k : Nat) : Byte := x.extractLsb' (8 * k) 8

/-- `bytes(X, n)`: byte `k` of the sequence stands in lane `k` (R67, 20_memory.md R40). -/
def bytesOf (x : Slot) (n : Nat) : List Byte := (List.range n).map (laneOf x)

/-- `le(s)`, the little-endian value of a sequence (00_scope.md R9). -/
def le : List Byte → Nat
  | [] => 0
  | b :: s => b.toNat + 256 * le s

/-- The slot image of a sequence: byte `k` in lane `k`, zero in the lanes above (20_memory.md R40). -/
def slotImage (s : List Byte) : Slot := BitVec.ofNat 384 (le s)

/-! ### The opcode map (R70) -/

/-- The value of `op` of each operation. -/
def Opcode.byte : Opcode → Byte
  | .divmod128 => 0x10
  | .divmod192 => 0x11
  | .umin => 0x20
  | .umax => 0x21
  | .ceil32 => 0x30
  | .bitlen => 0x31
  | .uintFromBe => 0x32
  | .u64FromBe => 0x33
  | .u256FromBe32 => 0x40
  | .u256ToBe32 => 0x41
  | .u256FromLe32 => 0x42
  | .u256ToLe32 => 0x43
  | .u256FromBe20 => 0x44
  | .u256ToBe20 => 0x45
  | .u256FromBe => 0x46
  | .u256Add => 0x50
  | .u256Addc => 0x51
  | .u256Sub => 0x52
  | .u256Mul => 0x53
  | .u256Le => 0x54
  | .u256Min => 0x55
  | .u256Max => 0x56
  | .u256Eq => 0x57
  | .u256FromUint => 0x58
  | .u256ToUint => 0x59
  | .u384Iszero => 0x60
  | .u384Isone => 0x61
  | .u384FromBe => 0x62
  | .u384ToBe => 0x63
  | .u384Eq => 0x64
  | .taylor => 0x70

/-- The operation an `op` byte selects, none for the 225 illegal values (R69, R73). -/
def Opcode.ofByte (b : Byte) : Option Opcode :=
  match b.toNat with
  | 0x10 => some .divmod128
  | 0x11 => some .divmod192
  | 0x20 => some .umin
  | 0x21 => some .umax
  | 0x30 => some .ceil32
  | 0x31 => some .bitlen
  | 0x32 => some .uintFromBe
  | 0x33 => some .u64FromBe
  | 0x40 => some .u256FromBe32
  | 0x41 => some .u256ToBe32
  | 0x42 => some .u256FromLe32
  | 0x43 => some .u256ToLe32
  | 0x44 => some .u256FromBe20
  | 0x45 => some .u256ToBe20
  | 0x46 => some .u256FromBe
  | 0x50 => some .u256Add
  | 0x51 => some .u256Addc
  | 0x52 => some .u256Sub
  | 0x53 => some .u256Mul
  | 0x54 => some .u256Le
  | 0x55 => some .u256Min
  | 0x56 => some .u256Max
  | 0x57 => some .u256Eq
  | 0x58 => some .u256FromUint
  | 0x59 => some .u256ToUint
  | 0x60 => some .u384Iszero
  | 0x61 => some .u384Isone
  | 0x62 => some .u384FromBe
  | 0x63 => some .u384ToBe
  | 0x64 => some .u384Eq
  | 0x70 => some .taylor
  | _ => none

/-! ### Decoding -/

/-- Why a frame is no command: its `op` selects no operation (R69, R73). No other field can make a
command illegal (R74). -/
inductive DecodeError where
  | illegalCommand (op : Byte)
  deriving DecidableEq, Repr

/-- The operand of format S: `bytes(A, len)` when `len <= 48`, and no lane at all above that (R71). -/
def CommandFrame.sequence (f : CommandFrame) : List Byte :=
  if f.len.toNat ≤ Config.LANES then bytesOf f.slotA f.len.toNat else []

/-- The command of one operation in a frame: the fields its format names (R71). -/
def Opcode.read (o : Opcode) (f : CommandFrame) : Instr :=
  match o with
  | .divmod128 => .divmod128 (uintOf f.slotA) (uintOf f.slotB)
  | .divmod192 => .divmod192 (uintOf f.slotA) (uintOf f.slotB)
  | .umin => .umin (uintOf f.slotA) (uintOf f.slotB)
  | .umax => .umax (uintOf f.slotA) (uintOf f.slotB)
  | .ceil32 => .ceil32 (uintOf f.slotA)
  | .bitlen => .bitlen (uintOf f.slotA)
  | .uintFromBe => .uintFromBe f.len f.sequence
  | .u64FromBe => .u64FromBe f.len f.sequence
  | .u256FromBe32 => .u256FromBe32 (bytesOf f.slotA Config.CAP_U256)
  | .u256ToBe32 => .u256ToBe32 (u256Of f.slotA)
  | .u256FromLe32 => .u256FromLe32 (bytesOf f.slotA Config.CAP_U256)
  | .u256ToLe32 => .u256ToLe32 (u256Of f.slotA)
  | .u256FromBe20 => .u256FromBe20 (bytesOf f.slotA Config.CAP_ADDR)
  | .u256ToBe20 => .u256ToBe20 (u256Of f.slotA)
  | .u256FromBe => .u256FromBe f.len f.sequence
  | .u256Add => .u256Add (u256Of f.slotA) (u256Of f.slotB)
  | .u256Addc => .u256Addc (u256Of f.slotA) (u256Of f.slotB)
  | .u256Sub => .u256Sub (u256Of f.slotA) (u256Of f.slotB)
  | .u256Mul => .u256Mul (u256Of f.slotA) (u256Of f.slotB)
  | .u256Le => .u256Le (u256Of f.slotA) (u256Of f.slotB)
  | .u256Min => .u256Min (u256Of f.slotA) (u256Of f.slotB)
  | .u256Max => .u256Max (u256Of f.slotA) (u256Of f.slotB)
  | .u256Eq => .u256Eq (u256Of f.slotA) (u256Of f.slotB)
  | .u256FromUint => .u256FromUint (uintOf f.slotA)
  | .u256ToUint => .u256ToUint (u256Of f.slotA)
  | .u384Iszero => .u384Iszero (u384Of f.slotA)
  | .u384Isone => .u384Isone (u384Of f.slotA)
  | .u384FromBe => .u384FromBe f.len f.sequence
  | .u384ToBe => .u384ToBe (u384Of f.slotA) f.len
  | .u384Eq => .u384Eq (u384Of f.slotA) (u384Of f.slotB)
  | .taylor => .taylor (uintOf f.slotA) (uintOf f.slotB) (uintOf f.slotC)

/-- Decoding a command reads `op` and nothing else to choose the operation (R69). -/
def decode (f : CommandFrame) : Except DecodeError Instr :=
  match Opcode.ofByte f.op with
  | some o => .ok (o.read f)
  | none => .error (.illegalCommand f.op)

/-! ### Encoding: the frame of a command, every field its format does not name zero -/

/-- `zext_384` of a 256-bit field (00_scope.md R8). -/
def wide (x : BitVec 256) : Slot := x.setWidth 384

/-- The `len` field and the three slots of a command. -/
def Instr.fields : Instr → Byte × Slot × Slot × Slot
  | .divmod128 a b => (0, wide a, wide b, 0)
  | .divmod192 a b => (0, wide a, wide b, 0)
  | .umin a b => (0, wide a, wide b, 0)
  | .umax a b => (0, wide a, wide b, 0)
  | .ceil32 a => (0, wide a, 0, 0)
  | .bitlen a => (0, wide a, 0, 0)
  | .uintFromBe len bytes => (len, slotImage bytes, 0, 0)
  | .u64FromBe len bytes => (len, slotImage bytes, 0, 0)
  | .u256FromBe32 bytes => (0, slotImage bytes, 0, 0)
  | .u256ToBe32 a => (0, wide a, 0, 0)
  | .u256FromLe32 bytes => (0, slotImage bytes, 0, 0)
  | .u256ToLe32 a => (0, wide a, 0, 0)
  | .u256FromBe20 bytes => (0, slotImage bytes, 0, 0)
  | .u256ToBe20 a => (0, wide a, 0, 0)
  | .u256FromBe len bytes => (len, slotImage bytes, 0, 0)
  | .u256Add a b => (0, wide a, wide b, 0)
  | .u256Addc a b => (0, wide a, wide b, 0)
  | .u256Sub a b => (0, wide a, wide b, 0)
  | .u256Mul a b => (0, wide a, wide b, 0)
  | .u256Le a b => (0, wide a, wide b, 0)
  | .u256Min a b => (0, wide a, wide b, 0)
  | .u256Max a b => (0, wide a, wide b, 0)
  | .u256Eq a b => (0, wide a, wide b, 0)
  | .u256FromUint a => (0, wide a, 0, 0)
  | .u256ToUint a => (0, wide a, 0, 0)
  | .u384Iszero x => (0, x, 0, 0)
  | .u384Isone x => (0, x, 0, 0)
  | .u384FromBe len bytes => (len, slotImage bytes, 0, 0)
  | .u384ToBe x len => (len, x, 0, 0)
  | .u384Eq x y => (0, x, y, 0)
  | .taylor a b c => (0, wide a, wide b, wide c)

/-- The frame of a command (R60, R70, R71). -/
def encode (i : Instr) : CommandFrame :=
  CommandFrame.ofFields i.opcode.byte i.fields.1 i.fields.2.1 i.fields.2.2.1 i.fields.2.2.2

/-! ### The host's numbering of an instruction's bits -/

/-- The frame whose low `nbits` bits are `w` and whose other bits are zero (log entry 4). The table
gives a row the 8 bits of `op`; a command has the one length of 1168 bits (R60). -/
def frameOfWord (nbits w : Nat) : CommandFrame := BitVec.ofNat 1168 (w % 2 ^ nbits)

/-- What the decoder reads from the frame of a table word. -/
def decodeTableWord (nbits w : Nat) : Option Instr :=
  match decode (frameOfWord nbits w) with
  | .ok i => some i
  | .error _ => none

end Sys2Proof
end

