-- ==== Sys2Proof/Machine/Operands.lean ====
section
/-! DEFINITION. Values of operands and results: byte sequences as numbers in both orders, limbs of
the wide types, and zero extension (spec 00_scope.md R8, R9, R12; 20_memory.md R40 to R44;
30_encoding.md R64 to R68). -/

namespace Sys2Proof.Machine

/-- `zext_384(v)`: an exact number narrowed once, at the end, to a 384-bit slot (00_scope.md R8). -/
def zext384 (v : Nat) : Slot := BitVec.ofNat 384 v

/-- `be(s)`, the big-endian value of a sequence: the byte at index 0 weighs most (00_scope.md R9). -/
def be : List Byte → Nat
  | [] => 0
  | b :: s => b.toNat * 256 ^ s.length + be s

/-- `be_bytes(v, n)`: byte `k` is (v div 256^(n-1-k)) mod 256 (00_scope.md R9; 43_u256_codec.md R131). -/
def beBytes (v : Nat) : Nat → List Byte
  | 0 => []
  | n + 1 => BitVec.ofNat 8 (v / 256 ^ n) :: beBytes v n

/-- `le_bytes(v, n)`: byte `k` is (v div 256^k) mod 256 (00_scope.md R9; 43_u256_codec.md R133). -/
def leBytes (v : Nat) : Nat → List Byte
  | 0 => []
  | n + 1 => BitVec.ofNat 8 v :: leBytes (v / 256) n

/-- A Uint operand field holds no Uint: its value is `B` or more (00_scope.md R12,
60_exceptions.md R209). -/
def outOfDomain (v : UintField) : Bool := Config.B ≤ v.toNat

/-! ### Limbs, least significant first (20_memory.md R43) -/

/-- The limb `low` of a U256 (30_encoding.md R65). -/
abbrev u256Low (m : U256) : BitVec 128 := m.extractLsb' 0 128

/-- The limb `high` of a U256 (30_encoding.md R65). -/
abbrev u256High (m : U256) : BitVec 128 := m.extractLsb' 128 128

/-- The limb `d0` of a U384 (30_encoding.md R66). -/
abbrev u384D0 (x : U384) : BitVec 96 := x.extractLsb' 0 96

/-- The limb `d1` of a U384 (30_encoding.md R66). -/
abbrev u384D1 (x : U384) : BitVec 96 := x.extractLsb' 96 96

/-- The limb `d2` of a U384 (30_encoding.md R66). -/
abbrev u384D2 (x : U384) : BitVec 96 := x.extractLsb' 192 96

/-- The limb `d3` of a U384 (30_encoding.md R66). -/
abbrev u384D3 (x : U384) : BitVec 96 := x.extractLsb' 288 96

end Sys2Proof.Machine
end

