-- ==== Sys2Proof/Machine/State.lean ====
section
/-! DEFINITION. What stands at the interface of keth CORE between two steps, the fields of a
response, the error kinds, and why a step can stop.

The block itself holds nothing: no register, program counter, flag, control register, memory,
pending fault or mode exists (spec 10_state.md R20 to R26, R31), so the spec's own state type for it
is the unit type (R20). `State` holds the two frame queues that the host and the block share (log
entry 1). The parameters are constants (R32), in Config. -/

namespace Sys2Proof.Machine

/-- The commands the host has issued and the block has not answered, and the responses the block
has returned and the host has not read, both oldest first: responses are returned one per command
in the order the commands were accepted (20_memory.md R50). DESIGN CHOICE (log entry 1). -/
structure State where
  commands : List CommandFrame
  responses : List ResponseFrame
  deriving DecidableEq, Repr

/-- The fields of a response (30_encoding.md R61). -/
structure Response where
  status : Byte
  rlen : Byte
  r0 : Slot
  r1 : Slot
  deriving DecidableEq, Repr

/-- The kinds of error a command can end with (60_exceptions.md R200). They are reported in the
response; none of them stops the machine (R213, R214). -/
inductive ErrorKind where
  | divisionError
  | overflowError
  | valueError
  | outOfRangeError
  | illegalCommand
  deriving DecidableEq, Repr

/-- Why a step can stop with a fault. The spec has no such stop: every error is a status in a
response (60_exceptions.md R201, R213), and the block never halts (70_reset_and_hazards.md R239). -/
inductive Fault where
  /-- Raised by TAYLOR if its loop were still running when the model's fuel is spent: the absence of
  an answer, never a result (70_reset_and_hazards.md R238). Safe: nothing is claimed of such a run,
  and none exists (Laws/Series.lean, `series_run_answers`). DESIGN CHOICE (log entry 5). -/
  | seriesUnanswered
  deriving DecidableEq, Repr

/-- Why an instruction may have no meaning. -/
inductive Refusal where
  /-- Raised by an arm of `exec` for an instruction the model gives no meaning. Safe. No arm does. -/
  | notModelled (mnemonic : String)
  deriving DecidableEq, Repr

/-- Right after reset: nothing to establish in the block, and nothing at its interface (10_state.md
R31, 70_reset_and_hazards.md R230). DESIGN CHOICE for the two queues (log entry 1). -/
def State.reset : State where
  commands := []
  responses := []

end Sys2Proof.Machine
end

