-- ==== Sys2Proof/Machine/Ops.lean ====
section
/-! DEFINITION. The operations the meanings share: the response frame, the two ways a command ends
(with a result, or with an error kind), and what the host does at the interface (spec
30_encoding.md R61, R62; 60_exceptions.md R200, R201, R204; 20_memory.md R50). -/

namespace Sys2Proof.Machine

/-- The status code of each kind (60_exceptions.md R200). -/
def ErrorKind.code : ErrorKind → Byte
  | .divisionError => 0x01
  | .overflowError => 0x02
  | .valueError => 0x03
  | .outOfRangeError => 0x04
  | .illegalCommand => 0xFF

/-- The status code `OK` (60_exceptions.md R200). -/
def statusOk : Byte := 0x00

/-- The response frame: `status` in rsp[7:0], `rlen` in rsp[15:8], `R0` in rsp[399:16], `R1` in
rsp[783:400] (30_encoding.md R61). -/
def Response.pack (r : Response) : ResponseFrame :=
  BitVec.cast rfl (r.r1 ++ r.r0 ++ r.rlen ++ r.status)

/-- The fields of a response frame (30_encoding.md R61). -/
def Response.unpack (f : ResponseFrame) : Response where
  status := f.extractLsb' 0 8
  rlen := f.extractLsb' 8 8
  r0 := f.extractLsb' 16 384
  r1 := f.extractLsb' 400 384

/-- A response that reports success. A field no rule writes is zero (30_encoding.md R62,
00_scope.md R10). -/
def Response.ok (r0 : Slot) (r1 : Slot := 0) (rlen : Byte := 0) : Response where
  status := statusOk
  rlen := rlen
  r0 := r0
  r1 := r1

/-- A response that reports an error: every other field is zero, no partial result is exposed
(60_exceptions.md R204). -/
def Response.error (k : ErrorKind) : Response where
  status := k.code
  rlen := 0
  r0 := 0
  r1 := 0

/-- The block returns a response. Nothing else changes: no command has another effect
(10_state.md R20, 60_exceptions.md R201). -/
def State.reply (s : State) (r : Response) : State :=
  { s with responses := s.responses ++ [r.pack] }

/-- A command ends with status `OK` (30_encoding.md R62). -/
def complete (s : State) (r0 : Slot) (r1 : Slot := 0) (rlen : Byte := 0) :
    Host.Outcome State Fault Refusal :=
  .next (s.reply (Response.ok r0 r1 rlen))

/-- `raise K`, the one way an error is taken: the command ends at once with the code of `K` as its
status. No state is saved, no mode changes, control goes nowhere, and there is nothing to return
from (00_scope.md R10; 60_exceptions.md R201, R204, R213, R214). -/
def raise (k : ErrorKind) (s : State) : Host.Outcome State Fault Refusal :=
  .next (s.reply (Response.error k))

/-! ### The host at the interface (10_state.md R29) -/

/-- The host issues a command: it stands behind those already accepted (20_memory.md R50). -/
def State.issue (s : State) (f : CommandFrame) : State :=
  { s with commands := s.commands ++ [f] }

/-- The host reads the oldest response it has not read, none if there is none. -/
def State.readResponse (s : State) : Option (Response × State) :=
  match s.responses with
  | [] => none
  | f :: rest => some (Response.unpack f, { s with responses := rest })

/-- Reset applied while the block is in use: the commands accepted and not answered are abandoned
and get no response (70_reset_and_hazards.md R231). Responses already returned have left the block
(log entry 6). -/
def State.applyReset (s : State) : State :=
  { s with commands := [] }

end Sys2Proof.Machine
end

