-- ==== Sys2Proof/Machine/Comparators.lean ====
section
/-! DEFINITION. The comparators over Uints: UMIN and UMAX (spec 41_comparators.md R110 to R112). -/

namespace Sys2Proof.Machine

/-- UMIN, the tie going to `a` (R110). -/
def execUmin (a b : UintField) (s : State) : Host.Outcome State Fault Refusal :=
  if outOfDomain a || outOfDomain b then raise .valueError s
  else if a.toNat ≤ b.toNat then complete s (zext384 a.toNat)
  else complete s (zext384 b.toNat)

/-- UMAX, the tie going to `a`, so the test is `b <= a` (R111, 90_conflicts.md C6). -/
def execUmax (a b : UintField) (s : State) : Host.Outcome State Fault Refusal :=
  if outOfDomain a || outOfDomain b then raise .valueError s
  else if b.toNat ≤ a.toNat then complete s (zext384 a.toNat)
  else complete s (zext384 b.toNat)

end Sys2Proof.Machine
end

