-- ==== Sys2Proof/Machine/Divmod.lean ====
section
/-! DEFINITION. The divmod units: DIVMOD128 and DIVMOD192 (spec 40_divmod.md R100 to R106). -/

namespace Sys2Proof.Machine

/-- `DIVMOD(W, value, div)` with its three checks in order, `boundedMax` being `2^W` (R100). The
divisor bound is inclusive, the quotient bound exclusive. -/
def divmod (boundedMax value div : Nat) : Except ErrorKind (Nat × Nat) :=
  if div = 0 ∨ boundedMax < div then .error .divisionError
  else if Config.B ≤ value then .error .valueError
  else if boundedMax ≤ value / div then .error .divisionError
  else .ok (value / div, value % div)

/-- A divmod command: the quotient in `R0`, the remainder in `R1` (R101, R102). -/
def divmodCommand (boundedMax : Nat) (value div : UintField) (s : State) :
    Host.Outcome State Fault Refusal :=
  match divmod boundedMax value.toNat div.toNat with
  | .error k => raise k s
  | .ok (q, r) => complete s (zext384 q) (zext384 r)

/-- DIVMOD128 (R101). -/
def execDivmod128 (value div : UintField) (s : State) : Host.Outcome State Fault Refusal :=
  divmodCommand Config.BOUND128 value div s

/-- DIVMOD192 (R102). -/
def execDivmod192 (value div : UintField) (s : State) : Host.Outcome State Fault Refusal :=
  divmodCommand Config.BOUND192 value div s

end Sys2Proof.Machine
end

