-- ==== Sys2Proof/Machine/Taylor.lean ====
section
/-! DEFINITION. The saturating series evaluator TAYLOR (spec 46_taylor.md R190 to R197). Its working
variables are exact integers that live inside one command (10_state.md R27). -/

namespace Sys2Proof.Machine

/-- The working state `(output, i, acc)` of the loop (R191). -/
structure Series where
  output : Nat
  i : Nat
  acc : Nat
  deriving DecidableEq, Repr

/-- What one look at the working state decides (R191): the loop ends with a value of `output`, a
check of the pass raises, or the loop goes on. -/
inductive SeriesPass where
  | ended (output : Nat)
  | raised (k : ErrorKind)
  | going (σ : Series)
  deriving DecidableEq, Repr

/-- The working state before the loop (R190, R191). -/
def Series.start (factor denominator : Nat) : Series where
  output := 0
  i := 1
  acc := factor * denominator

/-- One pass of the loop (R190, R191). `acc` is added before the guard is tested, and the exact
product `next` is compared with `2^128` and never faults (R193; 90_conflicts.md C8). -/
def Series.pass (numerator denominator : Nat) (σ : Series) : SeriesPass :=
  if σ.acc = 0 then .ended σ.output
  else
    let output := σ.output + σ.acc
    if Config.B ≤ output then .raised .overflowError
    else
      let next := σ.acc * numerator
      if Config.SAT ≤ next then .ended output
      else
        match divmod Config.BOUND128 next (denominator * σ.i) with
        | .error k => .raised k
        | .ok (q, _) => .going { output := output, i := σ.i + 1, acc := q }

/-- The loop, run on fuel so that it is structural. Fuel spent is the absence of an answer, never a
result (70_reset_and_hazards.md R238). -/
def Series.run (numerator denominator : Nat) : Nat → Series → Option (Except ErrorKind Nat)
  | 0, _ => none
  | fuel + 1, σ =>
    match σ.pass numerator denominator with
    | .ended output => some (.ok output)
    | .raised k => some (.error k)
    | .going σ' => Series.run numerator denominator fuel σ'

/-- More passes than the loop can make: `numerator div denominator` until `acc` must decrease, then
one for each value `acc` can take (R192). The hardware has no pass limit, and this one is never
reached (Laws/Series.lean). DESIGN CHOICE (log entry 5). -/
def Series.fuel (numerator denominator : Nat) : Nat :=
  numerator / denominator + Config.B + 1

/-- The end of a TAYLOR command: the closing division (R190, check 5). -/
def taylorClose (output denominator : Nat) (s : State) : Host.Outcome State Fault Refusal :=
  match divmod Config.BOUND128 output denominator with
  | .error k => raise k s
  | .ok (result, _) => complete s (zext384 result)

/-- TAYLOR, its checks in the order (1) to (5) of R190. -/
def execTaylor (factor numerator denominator : UintField) (s : State) :
    Host.Outcome State Fault Refusal :=
  if outOfDomain factor || outOfDomain numerator || outOfDomain denominator then
    raise .valueError s
  else if Config.B ≤ factor.toNat * denominator.toNat then raise .overflowError s
  else
    match Series.run numerator.toNat denominator.toNat
        (Series.fuel numerator.toNat denominator.toNat)
        (Series.start factor.toNat denominator.toNat) with
    | none => .fault .seriesUnanswered
    | some (.error k) => raise k s
    | some (.ok output) => taylorClose output denominator.toNat s

end Sys2Proof.Machine
end

