-- ==== Sys2Proof/Machine/Flags.lean ====
section
/-! DEFINITION. keth CORE has no flags and no condition codes (spec 10_state.md R22): an overflow is
a status, the carry of U256_ADDC is a result, and a comparison answers a truth value. This file
holds the conditions and small results that other machines would keep as flags. -/

namespace Sys2Proof.Machine

/-- A truth value in a slot: 1 for true and 0 for false (00_scope.md R11, 30_encoding.md R68). -/
def truth (b : Bool) : Slot := if b then 1 else 0

/-- Carry out of the high limb of a 256-bit addition, 0 or 1 (44_u256_arith.md R151). -/
def carryOut (a b : U256) : Nat := (a.toNat + b.toNat) / 2 ^ 256

/-- The 256-bit addition overflows (44_u256_arith.md R150). -/
def addOverflows (a b : U256) : Bool := 2 ^ 256 ≤ a.toNat + b.toNat

/-- The 256-bit subtraction underflows (44_u256_arith.md R152). -/
def subUnderflows (a b : U256) : Bool := a.toNat < b.toNat

/-- The 256-bit multiplication overflows (44_u256_arith.md R153). -/
def mulOverflows (a b : U256) : Bool := 2 ^ 256 ≤ a.toNat * b.toNat

end Sys2Proof.Machine
end

