-- ==== Sys2Proof/Machine/U256Arith.lean ====
section
/-! DEFINITION. U256 adder, subtractor, multiplier, order and conversions (spec 44_u256_arith.md
R150 to R161). All arithmetic is exact and narrowed once, after the check (00_scope.md R7). -/

namespace Sys2Proof.Machine

/-- U256_ADD (R150). -/
def execU256Add (a b : U256) (s : State) : Host.Outcome State Fault Refusal :=
  if addOverflows a b then raise .overflowError s
  else complete s (zext384 (a.toNat + b.toNat))

/-- U256_ADDC: the 256-bit sum in `R0`, the carry in `R1` (R151). -/
def execU256Addc (a b : U256) (s : State) : Host.Outcome State Fault Refusal :=
  complete s (zext384 ((a.toNat + b.toNat) % 2 ^ 256)) (zext384 (carryOut a b))

/-- U256_SUB (R152). -/
def execU256Sub (a b : U256) (s : State) : Host.Outcome State Fault Refusal :=
  if subUnderflows a b then raise .overflowError s
  else complete s (zext384 (a.toNat - b.toNat))

/-- U256_MUL (R153). -/
def execU256Mul (a b : U256) (s : State) : Host.Outcome State Fault Refusal :=
  if mulOverflows a b then raise .overflowError s
  else complete s (zext384 (a.toNat * b.toNat))

/-- U256_LE, on the magnitudes (R154). -/
def execU256Le (a b : U256) (s : State) : Host.Outcome State Fault Refusal :=
  complete s (truth (a.toNat ≤ b.toNat))

/-- U256_MIN (R155). -/
def execU256Min (a b : U256) (s : State) : Host.Outcome State Fault Refusal :=
  if a.toNat ≤ b.toNat then complete s (zext384 a.toNat)
  else complete s (zext384 b.toNat)

/-- U256_MAX, the tie going to `a` (R156, 90_conflicts.md C6). -/
def execU256Max (a b : U256) (s : State) : Host.Outcome State Fault Refusal :=
  if b.toNat ≤ a.toNat then complete s (zext384 a.toNat)
  else complete s (zext384 b.toNat)

/-- U256_EQ, limb by limb (R157). -/
def execU256Eq (a b : U256) (s : State) : Host.Outcome State Fault Refusal :=
  complete s (truth (u256Low a = u256Low b ∧ u256High a = u256High b))

/-- U256_FROM_UINT (R158). -/
def execU256FromUint (v : UintField) (s : State) : Host.Outcome State Fault Refusal :=
  if outOfDomain v then raise .valueError s
  else complete s (zext384 v.toNat)

/-- U256_TO_UINT: the bound is on the whole magnitude (R159, 90_conflicts.md C4). -/
def execU256ToUint (m : U256) (s : State) : Host.Outcome State Fault Refusal :=
  if Config.B ≤ m.toNat then raise .valueError s
  else complete s (zext384 m.toNat)

end Sys2Proof.Machine
end

