-- ==== Sys2Proof/Machine/UintHelpers.lean ====
section
/-! DEFINITION. The Uint helpers: CEIL32, BITLEN, UINT_FROM_BE and U64_FROM_BE (spec
42_uint_helpers.md R120 to R126), and the length check and decode that every variable-length
decoder shares (R126). -/

namespace Sys2Proof.Machine

/-- The value rounded up to a multiple of 32 (R120). It does not go through `divmod`: CEIL32 does
not inherit the quotient bound (40_divmod.md R105). -/
def ceil32 (value : Nat) : Nat :=
  if value % 32 = 0 then value else value + (32 - value % 32)

/-- CEIL32 (R120). -/
def execCeil32 (value : UintField) (s : State) : Host.Outcome State Fault Refusal :=
  if outOfDomain value then raise .valueError s
  else if Config.B ≤ ceil32 value.toNat then raise .overflowError s
  else complete s (zext384 (ceil32 value.toNat))

/-- The number of bits of `value` when only bits below `width` may be set: one more than the place
of the highest one bit, 0 for zero. The scan runs from the top, as a leading-zero counter does
(R121, R124). -/
def bitLength : (width value : Nat) → Nat
  | 0, _ => 0
  | w + 1, value => if value.testBit w then w + 1 else bitLength w value

/-- BITLEN. There is no separate domain check (R121). -/
def execBitlen (value : UintField) (s : State) : Host.Outcome State Fault Refusal :=
  if Config.BLMAX < bitLength 256 value.toNat then raise .outOfRangeError s
  else complete s (zext384 (bitLength 256 value.toNat))

/-- A decoder of at most `limit` big-endian bytes: the length check comes first, whatever the
sequence holds (R126; 60_exceptions.md R208). -/
def decodeBe (limit : Nat) (len : Byte) (bytes : List Byte) (s : State) :
    Host.Outcome State Fault Refusal :=
  if limit < len.toNat then raise .valueError s
  else complete s (zext384 (be bytes))

/-- UINT_FROM_BE (R122). -/
def execUintFromBe (len : Byte) (bytes : List Byte) (s : State) :
    Host.Outcome State Fault Refusal :=
  decodeBe Config.MAXLEN_UINT len bytes s

/-- U64_FROM_BE (R123). -/
def execU64FromBe (len : Byte) (bytes : List Byte) (s : State) :
    Host.Outcome State Fault Refusal :=
  decodeBe Config.MAXLEN_U64 len bytes s

end Sys2Proof.Machine
end

