-- ==== Sys2Proof/Machine/U256Codec.lean ====
section
/-! DEFINITION. The U256 byte encoders and decoders (spec 43_u256_codec.md R130 to R139). -/

namespace Sys2Proof.Machine

/-- U256_FROM_BE32 (R130). -/
def execU256FromBe32 (bytes : List Byte) (s : State) : Host.Outcome State Fault Refusal :=
  complete s (zext384 (be bytes))

/-- U256_TO_BE32 (R131). -/
def execU256ToBe32 (m : U256) (s : State) : Host.Outcome State Fault Refusal :=
  complete s (slotImage (beBytes m.toNat 32)) (rlen := 32)

/-- U256_FROM_LE32 (R132). -/
def execU256FromLe32 (bytes : List Byte) (s : State) : Host.Outcome State Fault Refusal :=
  complete s (zext384 (le bytes))

/-- U256_TO_LE32 (R133). -/
def execU256ToLe32 (m : U256) (s : State) : Host.Outcome State Fault Refusal :=
  complete s (slotImage (leBytes m.toNat 32)) (rlen := 32)

/-- U256_FROM_BE20: a 4-byte high part and a 16-byte low part, each read big-endian (R134). -/
def execU256FromBe20 (bytes : List Byte) (s : State) : Host.Outcome State Fault Refusal :=
  complete s (zext384 (be (bytes.take 4) * 2 ^ 128 + be (bytes.drop 4)))

/-- U256_TO_BE20: the high limb must fit 4 bytes (R135). -/
def execU256ToBe20 (m : U256) (s : State) : Host.Outcome State Fault Refusal :=
  if 2 ^ 32 - 1 < (u256High m).toNat then raise .overflowError s
  else complete s (slotImage (beBytes m.toNat 20)) (rlen := 20)

/-- U256_FROM_BE (R136). -/
def execU256FromBe (len : Byte) (bytes : List Byte) (s : State) :
    Host.Outcome State Fault Refusal :=
  decodeBe Config.CAP_U256 len bytes s

end Sys2Proof.Machine
end

