-- ==== Sys2Proof/Machine/U384Unit.lean ====
section
/-! DEFINITION. U384 tests and the variable-length byte codec (spec 45_u384.md R170 to R177). -/

namespace Sys2Proof.Machine

/-- U384_ISZERO: every limb zero (R170). -/
def execU384Iszero (x : U384) (s : State) : Host.Outcome State Fault Refusal :=
  complete s (truth (u384D0 x = 0 ∧ u384D1 x = 0 ∧ u384D2 x = 0 ∧ u384D3 x = 0))

/-- U384_ISONE: the lowest limb one, the others zero (R171). -/
def execU384Isone (x : U384) (s : State) : Host.Outcome State Fault Refusal :=
  complete s (truth (u384D0 x = 1 ∧ u384D1 x = 0 ∧ u384D2 x = 0 ∧ u384D3 x = 0))

/-- U384_FROM_BE (R172). -/
def execU384FromBe (len : Byte) (bytes : List Byte) (s : State) :
    Host.Outcome State Fault Refusal :=
  decodeBe Config.CAP_U384 len bytes s

/-- U384_TO_BE: the length check comes before the fit (R173, 60_exceptions.md R211). The guard is
the strict one (90_conflicts.md C5). -/
def execU384ToBe (x : U384) (len : Byte) (s : State) : Host.Outcome State Fault Refusal :=
  if Config.CAP_U384 < len.toNat then raise .valueError s
  else if 256 ^ len.toNat ≤ x.toNat then raise .overflowError s
  else complete s (slotImage (beBytes x.toNat len.toNat)) (rlen := len)

/-- U384_EQ, limb by limb (R174). -/
def execU384Eq (x y : U384) (s : State) : Host.Outcome State Fault Refusal :=
  complete s (truth (u384D0 x = u384D0 y ∧ u384D1 x = u384D1 y ∧ u384D2 x = u384D2 y ∧
    u384D3 x = u384D3 y))

end Sys2Proof.Machine
end

