-- ==== Sys2Proof/Machine/Dispatch.lean ====
section
/-! DEFINITION. `exec`: one arm per operation of spec/opcode_table.json, each a call of its meaning. -/

namespace Sys2Proof.Machine

/-- The effect of one command (10_state.md R29, 30_encoding.md R69). -/
def exec (i : Instr) (s : State) : Host.Outcome State Fault Refusal :=
  match i with
  -- 40_divmod.md
  | .divmod128 value div => Sys2Proof.Machine.execDivmod128 value div s
  | .divmod192 value div => Sys2Proof.Machine.execDivmod192 value div s
  -- 41_comparators.md
  | .umin a b => Sys2Proof.Machine.execUmin a b s
  | .umax a b => Sys2Proof.Machine.execUmax a b s
  -- 42_uint_helpers.md
  | .ceil32 value => Sys2Proof.Machine.execCeil32 value s
  | .bitlen value => Sys2Proof.Machine.execBitlen value s
  | .uintFromBe len bytes => Sys2Proof.Machine.execUintFromBe len bytes s
  | .u64FromBe len bytes => Sys2Proof.Machine.execU64FromBe len bytes s
  -- 43_u256_codec.md
  | .u256FromBe32 bytes => Sys2Proof.Machine.execU256FromBe32 bytes s
  | .u256ToBe32 m => Sys2Proof.Machine.execU256ToBe32 m s
  | .u256FromLe32 bytes => Sys2Proof.Machine.execU256FromLe32 bytes s
  | .u256ToLe32 m => Sys2Proof.Machine.execU256ToLe32 m s
  | .u256FromBe20 bytes => Sys2Proof.Machine.execU256FromBe20 bytes s
  | .u256ToBe20 m => Sys2Proof.Machine.execU256ToBe20 m s
  | .u256FromBe len bytes => Sys2Proof.Machine.execU256FromBe len bytes s
  -- 44_u256_arith.md
  | .u256Add a b => Sys2Proof.Machine.execU256Add a b s
  | .u256Addc a b => Sys2Proof.Machine.execU256Addc a b s
  | .u256Sub a b => Sys2Proof.Machine.execU256Sub a b s
  | .u256Mul a b => Sys2Proof.Machine.execU256Mul a b s
  | .u256Le a b => Sys2Proof.Machine.execU256Le a b s
  | .u256Min a b => Sys2Proof.Machine.execU256Min a b s
  | .u256Max a b => Sys2Proof.Machine.execU256Max a b s
  | .u256Eq a b => Sys2Proof.Machine.execU256Eq a b s
  | .u256FromUint v => Sys2Proof.Machine.execU256FromUint v s
  | .u256ToUint m => Sys2Proof.Machine.execU256ToUint m s
  -- 45_u384.md
  | .u384Iszero x => Sys2Proof.Machine.execU384Iszero x s
  | .u384Isone x => Sys2Proof.Machine.execU384Isone x s
  | .u384FromBe len bytes => Sys2Proof.Machine.execU384FromBe len bytes s
  | .u384ToBe x len => Sys2Proof.Machine.execU384ToBe x len s
  | .u384Eq x y => Sys2Proof.Machine.execU384Eq x y s
  -- 46_taylor.md
  | .taylor factor numerator denominator => Sys2Proof.Machine.execTaylor factor numerator denominator s

end Sys2Proof.Machine
end

