-- ==== Sys2Proof/Machine/Step.lean ====
section
/-! DEFINITION. One step: the block answers the oldest command it has accepted (spec 10_state.md R29,
20_memory.md R46, R50). -/

namespace Sys2Proof.Machine

/-- The block takes the oldest command out of the queue, decodes it and answers it, in one
indivisible event (20_memory.md R46). An illegal command is answered with `IllegalCommand`
(30_encoding.md R69). With no command to answer nothing happens: the block is ready and waits
(10_state.md R26, 70_reset_and_hazards.md R239; DEDUCED, log entry 3). -/
def step (s : State) : Host.Outcome State Fault Refusal :=
  match s.commands with
  | [] => .next s
  | f :: rest =>
    match decode f with
    | .ok i => exec i { s with commands := rest }
    | .error (.illegalCommand _) => raise .illegalCommand { s with commands := rest }

/-- The state whose next step answers the frame of a table word: that command is the oldest one the
host has issued (log entry 4). -/
def State.withFetchWord (s : State) (nbits w : Nat) : State :=
  { s with commands := frameOfWord nbits w :: s.commands }

end Sys2Proof.Machine
end

