-- ==== Sys2Proof/Machine/HostProgram.lean ====
section
/-! DEFINITION. The second agent, the host: a program is a finite list of commands whose operands may
name results of earlier commands, run in order and stopped at the first response whose status is not
`OK` (spec 10_state.md R29; 30_encoding.md R75, R77; 60_exceptions.md R215; 70_reset_and_hazards.md
R239). The block knows nothing of it (R77); log entry 13. -/

namespace Sys2Proof.Machine

/-- Where the host takes a slot of a frame from: a number it knows, or any result field of the `k`-th
command of the program, counted from 0 (30_encoding.md R77). -/
inductive SlotSource where
  | value (v : Slot)
  | r0 (k : Nat)
  | r1 (k : Nat)
  | rlen (k : Nat)
  deriving DecidableEq, Repr

/-- Where the host takes the `len` field from: a number it knows, or any result field of an earlier
command: the length of a sequence it returned (30_encoding.md R75: "s is a byte sequence of rlen
bytes"), or a number it returned, since `len` is an operand of U384_TO_BE (45_u384.md R173) and an
operand may name a result (30_encoding.md R77). -/
inductive LenSource where
  | value (n : Byte)
  | r0 (k : Nat)
  | r1 (k : Nat)
  | rlen (k : Nat)
  deriving DecidableEq, Repr

/-- One command of a host program (30_encoding.md R75). -/
structure HostCommand where
  op : Byte
  len : LenSource
  a : SlotSource
  b : SlotSource
  c : SlotSource
  deriving DecidableEq, Repr

/-- The `len` field the host sends for a length `n`. A length of 256 or more fits no field: the
largest one stands for it, so that the command is answered as the rules say for every length above
48 (45_u384.md R173, 60_exceptions.md R208). DESIGN CHOICE (log entry 16). -/
def lenField (n : Nat) : Byte := BitVec.ofNat 8 (min n 255)

/-- The slot a source names, given the responses read so far. -/
def SlotSource.fetch (done : List Response) : SlotSource → Option Slot
  | .value v => some v
  | .r0 k => (done[k]?).map Response.r0
  | .r1 k => (done[k]?).map Response.r1
  | .rlen k => (done[k]?).map fun r => r.rlen.setWidth 384

/-- The length a source names, given the responses read so far. -/
def LenSource.fetch (done : List Response) : LenSource → Option Byte
  | .value n => some n
  | .r0 k => (done[k]?).map fun r => lenField r.r0.toNat
  | .r1 k => (done[k]?).map fun r => lenField r.r1.toNat
  | .rlen k => (done[k]?).map Response.rlen

/-- The frame of a host command, none if it names a result that no earlier command has. -/
def HostCommand.frame (c : HostCommand) (done : List Response) : Option CommandFrame :=
  match c.len.fetch done, c.a.fetch done, c.b.fetch done, c.c.fetch done with
  | some len, some a, some b, some c' => some (CommandFrame.ofFields c.op len a b c')
  | _, _, _, _ => none

/-- The host issues one command, the block answers it, the host reads the response. -/
def transact (f : CommandFrame) (s : State) : Option (Response × State) :=
  match step (s.issue f) with
  | .next t => t.readResponse
  | .fault _ => none
  | .refused _ => none

/-- How a host program ends (70_reset_and_hazards.md R239). R239 has the host name some values as
outputs, and the program form of R77 has no place for such names. DESIGN CHOICE (log entry 13): the
outcome of a finished program is every response of it, so that any choice of outputs can be read
from it. -/
inductive HostOutcome where
  /-- Every command was answered with `OK`: all the responses, in order, with no list of output
  names beside them. DESIGN CHOICE (log entry 13). -/
  | finished (results : List Response)
  /-- A command was answered with another status: that error is the outcome, passed on unchanged
  (60_exceptions.md R215). -/
  | stopped (status : Byte)
  /-- The program names a result that no earlier command has: it is no program of R77. -/
  | badReference
  /-- The block gave no answer. It always does (70_reset_and_hazards.md R237). -/
  | noAnswer
  deriving DecidableEq, Repr

/-- A host program on an idle block: the outcome, and what stands at the interface after it. -/
def runHostProgram : List HostCommand → List Response → State → HostOutcome × State
  | [], done, s => (.finished done, s)
  | c :: rest, done, s =>
    match c.frame done with
    | none => (.badReference, s)
    | some f =>
      match transact f s with
      | none => (.noAnswer, s)
      | some (r, t) =>
        if r.status = statusOk then runHostProgram rest (done ++ [r]) t
        else (.stopped r.status, t)

end Sys2Proof.Machine
end

