-- ==== Sys2Proof/Safety.lean ====
section
/-! DEFINITION. What counts as a safe run, and the notions the statements speak in: a legal response,
the invariant of the interface, the bits of a frame a command reads, the loop of the series evaluator
as a relation without any pass limit, and a host program that ends without an error. -/

namespace Sys2Proof

/-- Two frames agree on everything a command of this format reads (30_encoding.md R71). The `op`
field is compared apart. -/
def Format.Agree (fmt : Format) (f g : CommandFrame) : Prop :=
  match fmt with
  | .U | .W => uintOf f.slotA = uintOf g.slotA
  | .UU | .WW => uintOf f.slotA = uintOf g.slotA ∧ uintOf f.slotB = uintOf g.slotB
  | .UUU => uintOf f.slotA = uintOf g.slotA ∧ uintOf f.slotB = uintOf g.slotB ∧
      uintOf f.slotC = uintOf g.slotC
  | .X => f.slotA = g.slotA
  | .XX => f.slotA = g.slotA ∧ f.slotB = g.slotB
  | .XL => f.slotA = g.slotA ∧ f.len = g.len
  | .S => f.len = g.len ∧
      (f.len.toNat ≤ 48 → ∀ k < f.len.toNat, laneOf f.slotA k = laneOf g.slotA k)
  | .S32 => ∀ k < 32, laneOf f.slotA k = laneOf g.slotA k
  | .S20 => ∀ k < 20, laneOf f.slotA k = laneOf g.slotA k

end Sys2Proof

namespace Sys2Proof.Machine

/-- A legal response: a status of the table of 60_exceptions.md R200; nothing but the status when it
is not `OK` (R204); a byte sequence of at most 48 bytes with zero lanes above its length
(20_memory.md R40); and a second result that is a remainder of a divmod unit or a carry, so below
`2^192` (30_encoding.md R61, 40_divmod.md R101, R102). -/
def Response.Legal (r : Response) : Prop :=
  (r.status = 0x00 ∨ r.status = 0x01 ∨ r.status = 0x02 ∨ r.status = 0x03 ∨ r.status = 0x04 ∨
    r.status = 0xFF) ∧
  (r.status ≠ 0x00 → r.rlen = 0 ∧ r.r0 = 0 ∧ r.r1 = 0) ∧
  r.rlen.toNat ≤ 48 ∧
  (r.rlen ≠ 0 → r.r0.toNat < 256 ^ r.rlen.toNat) ∧
  r.r1.toNat < 2 ^ 192

/-- Every response the block has returned is legal. -/
def State.ResponsesLegal (s : State) : Prop :=
  ∀ f ∈ s.responses, (Response.unpack f).Legal

/-- The loop of the series evaluator as a relation from a working state to how the loop ends, with
every rule of 46_taylor.md R190 and R191 and no limit on the number of passes
(70_reset_and_hazards.md R238). -/
inductive Series.Evaluates (numerator denominator : Nat) : Series → Except ErrorKind Nat → Prop where
  /-- `acc = 0`: the loop ends with `output`. -/
  | ended (output i : Nat) :
      Series.Evaluates numerator denominator ⟨output, i, 0⟩ (.ok output)
  /-- Check (3): the sum leaves the domain. -/
  | sumOverflows (output i acc : Nat) (running : acc ≠ 0) (sum : Config.B ≤ output + acc) :
      Series.Evaluates numerator denominator ⟨output, i, acc⟩ (.error .overflowError)
  /-- Saturation: `acc` has been added, the term after it is not. -/
  | saturates (output i acc : Nat) (running : acc ≠ 0) (sum : output + acc < Config.B)
      (next : 2 ^ 128 ≤ acc * numerator) :
      Series.Evaluates numerator denominator ⟨output, i, acc⟩ (.ok (output + acc))
  /-- Check (4): the divisor is out of bounds. -/
  | divisorFails (output i acc : Nat) (running : acc ≠ 0) (sum : output + acc < Config.B)
      (next : acc * numerator < 2 ^ 128) (divisor : denominator * i = 0 ∨ 2 ^ 128 < denominator * i) :
      Series.Evaluates numerator denominator ⟨output, i, acc⟩ (.error .divisionError)
  /-- The loop goes on. -/
  | passes (output i acc : Nat) (r : Except ErrorKind Nat) (running : acc ≠ 0)
      (sum : output + acc < Config.B) (next : acc * numerator < 2 ^ 128)
      (divisor : 0 < denominator * i ∧ denominator * i ≤ 2 ^ 128)
      (rest : Series.Evaluates numerator denominator
        ⟨output + acc, i + 1, acc * numerator / (denominator * i)⟩ r) :
      Series.Evaluates numerator denominator ⟨output, i, acc⟩ r

/-- A host program is safe when it ends without an error: every command answered with `OK`
(30_encoding.md R77, 60_exceptions.md R215). -/
def HostOutcome.Safe (o : HostOutcome) : Prop :=
  match o with
  | .finished _ => True
  | .stopped _ => False
  | .badReference => False
  | .noAnswer => False

/-- Nothing waits at the interface: the block is as it is right after reset (10_state.md R26). -/
def State.Idle (s : State) : Prop := s.commands = [] ∧ s.responses = []

end Sys2Proof.Machine
end

