-- ==== Sys2Proof/Certificates/Slice0/Obligations.lean ====
section
/-! DEFINITION. The statements about the model of keth CORE. A response is written by its fields
`⟨status, rlen, R0, R1⟩` (spec 30_encoding.md R61). `s.reply r` is `s` with the frame of `r` behind its
responses and nothing else changed, so every equation `exec i s = .next (s.reply r)` is also the
frame of the command: no command waiting is touched and every earlier response stands. The machine
has no register, flag, status register, exception register or memory a frame could speak of
(10_state.md R20 to R26). -/

open Sys2Proof Sys2Proof.Machine

/-- The frame made of fields op, len, A, B_, C is, as a number, op + len*2^8 + A*2^16 + B_*2^400 +
C*2^784 (1168 bits), and the five field readers give the five fields back. (R60) -/
def Obligations.CommandFrameIsSumOfFields : Prop :=
  ∀ (op len : Byte) (a b c : Slot),
    (CommandFrame.ofFields op len a b c).toNat =
      op.toNat + len.toNat * 2 ^ 8 + a.toNat * 2 ^ 16 + b.toNat * 2 ^ 400 + c.toNat * 2 ^ 784 ∧
    (CommandFrame.ofFields op len a b c).op = op ∧
    (CommandFrame.ofFields op len a b c).len = len ∧
    (CommandFrame.ofFields op len a b c).slotA = a ∧
    (CommandFrame.ofFields op len a b c).slotB = b ∧
    (CommandFrame.ofFields op len a b c).slotC = c

/-- The frame of a response is, as a number, status + rlen*2^8 + R0*2^16 + R1*2^400 (784 bits), and
reading its fields gives the response back. (R61) -/
def Obligations.ResponseFrameIsSumOfFields : Prop :=
  ∀ r : Response,
    r.pack.toNat =
      r.status.toNat + r.rlen.toNat * 2 ^ 8 + r.r0.toNat * 2 ^ 16 + r.r1.toNat * 2 ^ 400 ∧
    Response.unpack r.pack = r

/-- be(s) is the sum of b_k*256^(n-1-k), le(s) the sum of b_k*256^k; for v < 256^n, be_bytes(v,n) is
the one sequence of length n with be value v, and le_bytes(v,n) the one with le value v. (R9) -/
def Obligations.ByteSequenceValuesAreSums : Prop :=
  (∀ s : List Byte,
    be s = ∑ k : Fin s.length, s[k].toNat * 256 ^ (s.length - 1 - k) ∧
    le s = ∑ k : Fin s.length, s[k].toNat * 256 ^ (k : Nat)) ∧
  (∀ (v n : Nat) (s : List Byte), v < 256 ^ n →
    (beBytes v n = s ↔ s.length = n ∧ be s = v) ∧
    (leBytes v n = s ↔ s.length = n ∧ le s = v))

/-- For every frame: either op is the byte of one of the 31 operations and the frame decodes to that
operation with the fields its format names, or it is none of them, the decoder refuses it by name
and the step answers IllegalCommand (status 0xFF, all other bits 0) whatever the other fields hold.
(R69, R206) -/
def Obligations.DecoderIsTotalOnOpAlone : Prop :=
  ∀ f : CommandFrame,
    (∃ o : Opcode, f.op = o.byte ∧ decode f = .ok (o.read f) ∧ (o.read f).opcode = o) ∨
    ((∀ o : Opcode, f.op ≠ o.byte) ∧ decode f = .error (.illegalCommand f.op) ∧
      ∀ cs rs, step ⟨f :: cs, rs⟩ = .next ⟨cs, rs ++ [(0xFF : ResponseFrame)]⟩)

/-- The op bytes that select an operation are exactly the 31 of R70, so 225 values are illegal, 0x00
and 0xFF among them, and a frame with such an op is answered IllegalCommand and nothing else
happens. (R73) -/
def Obligations.IllegalOpcodesAreTheOther225 : Prop :=
  (∀ b : Byte, (∃ o : Opcode, b = o.byte) ↔
    b ∈ ([0x10, 0x11, 0x20, 0x21, 0x30, 0x31, 0x32, 0x33, 0x40, 0x41, 0x42, 0x43, 0x44, 0x45, 0x46,
      0x50, 0x51, 0x52, 0x53, 0x54, 0x55, 0x56, 0x57, 0x58, 0x59, 0x60, 0x61, 0x62, 0x63, 0x64,
      0x70] : List Byte)) ∧
  ((List.range 256).filter fun n => (Opcode.ofByte (BitVec.ofNat 8 n)).isNone).length = 225 ∧
  Opcode.ofByte 0x00 = none ∧ Opcode.ofByte 0xFF = none ∧
  ∀ (f : CommandFrame) (cs : List CommandFrame) (rs : List ResponseFrame),
    Opcode.ofByte f.op = none → step ⟨f :: cs, rs⟩ = .next ⟨cs, rs ++ [(0xFF : ResponseFrame)]⟩

/-- If the oldest issued frame decodes to the command i, the step is exec of i at the state without
that frame; the later commands keep their places. (derived from 10_state.md R29; 20_memory.md R46)
-/
def Obligations.StepRunsDecodedCommand : Prop :=
  ∀ (f : CommandFrame) (cs : List CommandFrame) (rs : List ResponseFrame) (i : Instr),
    decode f = .ok i → step ⟨f :: cs, rs⟩ = exec i ⟨cs, rs⟩

/-- The model's choice (log entry 3): when no command waits, a step leaves the state as it is.
(derived from 70_reset_and_hazards.md R239 "The block itself never ends, halts or locks up") -/
def Obligations.IdleBlockWaits : Prop :=
  ∀ rs : List ResponseFrame, step ⟨[], rs⟩ = .next ⟨[], rs⟩

/-- For every well-formed command of every one of the 31 operations, with every operand at every
value its field admits, decode (encode i) is i. (derived from 30_encoding.md R60; 30_encoding.md R69
to R71) -/
def Obligations.EncodeThenDecodeGivesCommandBack : Prop :=
  ∀ i : Instr, i.wellFormed = true → decode (encode i) = .ok i

/-- Whatever a frame holds, a command decoded from it has byte sequences of exactly the length its
format gives them. (derived from 30_encoding.md R71; 20_memory.md R40; 20_memory.md R41) -/
def Obligations.DecodedCommandsAreWellFormed : Prop :=
  ∀ (f : CommandFrame) (i : Instr), decode f = .ok i → i.wellFormed = true

/-- Ten whole frames, one or more of each of the seven families of opcodes 0x1_ to 0x7_, decode to
the command they stand for: eight are written out in 95_test_vectors.md, and those of UMIN 3, 9 and
UMAX 3, 9 are worked out from the layout of R60 and the opcodes of R70. (derived from
95_test_vectors.md F1, F2, F3, F5; 95_test_vectors.md P1 step 1, P4 steps 1 and 8, P2 step 4;
30_encoding.md R60; 30_encoding.md R70) -/
def Obligations.WrittenFramesDecode : Prop :=
  decode (BitVec.ofNat 1168 (7 * 2 ^ 400 + 100 * 2 ^ 16 + 0x10)) = .ok (.divmod128 100 7) ∧
  decode (BitVec.ofNat 1168 (9 * 2 ^ 400 + 3 * 2 ^ 16 + 0x20)) = .ok (.umin 3 9) ∧
  decode (BitVec.ofNat 1168 (9 * 2 ^ 400 + 3 * 2 ^ 16 + 0x21)) = .ok (.umax 3 9) ∧
  decode (0x302010332 : CommandFrame) = .ok (.uintFromBe 3 [0x01, 0x02, 0x03]) ∧
  decode (BitVec.ofNat 1168 (2 ^ 400 + (2 ^ 256 - 1) * 2 ^ 16 + 0x50)) =
    .ok (.u256Add (BitVec.ofNat 256 (2 ^ 256 - 1)) 1) ∧
  decode (BitVec.ofNat 1168 (2 ^ 784 + 2 ^ 400 + 2 ^ 16 + 0x70)) = .ok (.taylor 1 1 1) ∧
  decode (0x1f1e1d1c1b1a19181716151413121110efbeadde0044 : CommandFrame) =
    .ok (.u256FromBe20 [0xde, 0xad, 0xbe, 0xef, 0x10, 0x11, 0x12, 0x13, 0x14, 0x15, 0x16, 0x17, 0x18,
      0x19, 0x1a, 0x1b, 0x1c, 0x1d, 0x1e, 0x1f]) ∧
  decode (0xd0c0b0a0908070605040302010d62 : CommandFrame) =
    .ok (.u384FromBe 13 [0x01, 0x02, 0x03, 0x04, 0x05, 0x06, 0x07, 0x08, 0x09, 0x0a, 0x0b, 0x0c, 0x0d]) ∧
  decode (0x102030405060708090a0b0c0d0d63 : CommandFrame) =
    .ok (.u384ToBe 0x0102030405060708090a0b0c0d 13) ∧
  decode (0x2200058 : CommandFrame) = .ok (.u256FromUint 0x220)

/-- Two frames with the same legal op that agree on the fields its format reads (slots, low bits,
lanes below len, len) are answered alike, whatever their other bits; two frames with the same
illegal op are answered alike too. (R63) -/
def Obligations.UnreadBitsAreIgnored : Prop :=
  ∀ (f g : CommandFrame) (cs : List CommandFrame) (rs : List ResponseFrame),
    f.op = g.op → (∀ o : Opcode, f.op = o.byte → o.format.Agree f g) →
    step ⟨f :: cs, rs⟩ = step ⟨g :: cs, rs⟩

/-- If every response at the interface is legal (a status of R200, only zeros beside a status that
is not OK, at most 48 bytes and zero lanes above rlen, R1 below 2^192) and a step answers next,
every response is legal after it; for every state. (derived from 30_encoding.md R62;
60_exceptions.md R200; 60_exceptions.md R204; 20_memory.md R40) -/
def Obligations.EveryStepKeepsResponsesLegal : Prop :=
  ∀ s t : State, s.ResponsesLegal → step s = .next t → t.ResponsesLegal

/-- State.reset meets the invariant that every step keeps. That the two queues are empty after reset
is the model's choice (log entry 1). (derived from 10_state.md R31; 70_reset_and_hazards.md R230) -/
def Obligations.ResponsesLegalAfterReset : Prop :=
  State.reset.ResponsesLegal ∧ State.reset.commands = []

/-- There is a function g from command frames to response frames such that from every state, k steps
with k at least the number of waiting commands answer every one of them, in order, each with g of
its own frame (R49), in the order the commands were accepted (R50), and nothing else changes: no
command observes another, none is lost, and none stops the machine. That the steps beyond the
waiting commands change nothing is the model's choice (log entry 3). (derived from 20_memory.md R49;
20_memory.md R50; 70_reset_and_hazards.md R239) -/
def Obligations.ResponseIsFunctionOfItsFrameAlone : Prop :=
  ∃ g : CommandFrame → ResponseFrame,
    ∀ (cs : List CommandFrame) (rs : List ResponseFrame) (k : Nat), cs.length ≤ k →
      Sys2Proof.core.run k (State.mk cs rs) = .next (State.mk [] (rs ++ cs.map g))

/-- For every command and every state exec answers a next state that differs from the state by one
response put at the end; in particular the TAYLOR loop terminates for all operands and the model
fuel is never spent. (derived from 70_reset_and_hazards.md R237; 46_taylor.md R192; 10_state.md R20)
-/
def Obligations.EveryCommandIsAnswered : Prop :=
  ∀ (i : Instr) (s : State), ∃ r : Response, exec i s = .next (s.reply r)

/-- Every step that answers a command appends one response, which either has status OK or is exactly
the code of one of the five error kinds with rlen, R0 and R1 zero. (R204) -/
def Obligations.ErrorResponseCarriesOnlyItsStatus : Prop :=
  (ErrorKind.divisionError.code = 0x01 ∧ ErrorKind.overflowError.code = 0x02 ∧
    ErrorKind.valueError.code = 0x03 ∧ ErrorKind.outOfRangeError.code = 0x04 ∧
    ErrorKind.illegalCommand.code = 0xFF) ∧
  ∀ (f : CommandFrame) (cs : List CommandFrame) (rs : List ResponseFrame),
    ∃ r : Response, step ⟨f :: cs, rs⟩ = .next ⟨cs, rs ++ [r.pack]⟩ ∧
      (r.status = 0x00 ∨ ∃ k : ErrorKind, r = ⟨k.code, 0, 0, 0⟩)

/-- A command is answered with status 1 if and only if it is a DIVMOD128 or DIVMOD192 with a zero or
too large divisor or (the dividend being a Uint, R211) a quotient at the bound, or a TAYLOR whose
earlier checks pass and which fails a division inside the loop or the closing division. (R202) -/
def Obligations.DivisionErrorCauses : Prop :=
  ∀ (i : Instr) (s : State), exec i s = .next (s.reply ⟨0x01, 0, 0, 0⟩) ↔
    match i with
    | .divmod128 value div => div.toNat = 0 ∨ 2 ^ 128 < div.toNat ∨
        (value.toNat < 2 ^ 252 ∧ 2 ^ 128 ≤ value.toNat / div.toNat)
    | .divmod192 value div => div.toNat = 0 ∨ 2 ^ 192 < div.toNat ∨
        (value.toNat < 2 ^ 252 ∧ 2 ^ 192 ≤ value.toNat / div.toNat)
    | .taylor factor numerator denominator =>
        factor.toNat < 2 ^ 252 ∧ numerator.toNat < 2 ^ 252 ∧ denominator.toNat < 2 ^ 252 ∧
        factor.toNat * denominator.toNat < 2 ^ 252 ∧
        (Series.Evaluates numerator.toNat denominator.toNat
            ⟨0, 1, factor.toNat * denominator.toNat⟩ (.error .divisionError) ∨
          ∃ output, Series.Evaluates numerator.toNat denominator.toNat
              ⟨0, 1, factor.toNat * denominator.toNat⟩ (.ok output) ∧
            (denominator.toNat = 0 ∨ 2 ^ 128 < denominator.toNat ∨
              2 ^ 128 ≤ output / denominator.toNat))
    | _ => False

/-- A command is answered with status 2 if and only if it is one of the seven cases of R203
(U256_ADD, U256_SUB, U256_MUL, U256_TO_BE20, U384_TO_BE, CEIL32, TAYLOR), its earlier checks having
passed (R211). (R203) -/
def Obligations.OverflowErrorCauses : Prop :=
  ∀ (i : Instr) (s : State), exec i s = .next (s.reply ⟨0x02, 0, 0, 0⟩) ↔
    match i with
    | .u256Add a b => 2 ^ 256 ≤ a.toNat + b.toNat
    | .u256Sub a b => a.toNat < b.toNat
    | .u256Mul a b => 2 ^ 256 ≤ a.toNat * b.toNat
    | .u256ToBe20 m => 2 ^ 32 - 1 < m.toNat / 2 ^ 128
    | .u384ToBe x len => len.toNat ≤ 48 ∧ 256 ^ len.toNat ≤ x.toNat
    | .ceil32 value => value.toNat < 2 ^ 252 ∧ 2 ^ 252 - 32 < value.toNat
    | .taylor factor numerator denominator =>
        factor.toNat < 2 ^ 252 ∧ numerator.toNat < 2 ^ 252 ∧ denominator.toNat < 2 ^ 252 ∧
        (2 ^ 252 ≤ factor.toNat * denominator.toNat ∨
          Series.Evaluates numerator.toNat denominator.toNat
            ⟨0, 1, factor.toNat * denominator.toNat⟩ (.error .overflowError))
    | _ => False

/-- A command is answered with status 3 if and only if it is a length case of R208 or a domain case
of R209 (for the divmod units only after the divisor has passed its own check); no other command
raises it. (R208, R209) -/
def Obligations.ValueErrorCauses : Prop :=
  ∀ (i : Instr) (s : State), exec i s = .next (s.reply ⟨0x03, 0, 0, 0⟩) ↔
    match i with
    | .uintFromBe len _ => 31 < len.toNat
    | .u64FromBe len _ => 8 < len.toNat
    | .u256FromBe len _ => 32 < len.toNat
    | .u384FromBe len _ => 48 < len.toNat
    | .u384ToBe _ len => 48 < len.toNat
    | .u256ToUint m => 2 ^ 252 ≤ m.toNat
    | .umin a b => 2 ^ 252 ≤ a.toNat ∨ 2 ^ 252 ≤ b.toNat
    | .umax a b => 2 ^ 252 ≤ a.toNat ∨ 2 ^ 252 ≤ b.toNat
    | .ceil32 value => 2 ^ 252 ≤ value.toNat
    | .u256FromUint v => 2 ^ 252 ≤ v.toNat
    | .taylor factor numerator denominator =>
        2 ^ 252 ≤ factor.toNat ∨ 2 ^ 252 ≤ numerator.toNat ∨ 2 ^ 252 ≤ denominator.toNat
    | .divmod128 value div => 0 < div.toNat ∧ div.toNat ≤ 2 ^ 128 ∧ 2 ^ 252 ≤ value.toNat
    | .divmod192 value div => 0 < div.toNat ∧ div.toNat ≤ 2 ^ 192 ∧ 2 ^ 252 ≤ value.toNat
    | _ => False

/-- A command is answered with status 4 if and only if it is a BITLEN whose operand is 2^252 or
more. (R205) -/
def Obligations.OutOfRangeErrorOnlyFromBitlen : Prop :=
  ∀ (i : Instr) (s : State), exec i s = .next (s.reply ⟨0x04, 0, 0, 0⟩) ↔
    ∃ value : UintField, i = .bitlen value ∧ 2 ^ 252 ≤ value.toNat

/-- A response with status OK of an operation outside the U384 family has R0 below 2^256; a Uint
result (quotients, UMIN, UMAX, CEIL32, UINT_FROM_BE of a well-formed operand, U256_TO_UINT, TAYLOR)
is below B, and a divmod remainder too. (derived from 30_encoding.md R64, R65; 00_scope.md R13;
60_exceptions.md R210) -/
def Obligations.ResultsStayInTheirType : Prop :=
  ∀ (i : Instr) (s : State) (r : Response), i.wellFormed = true → exec i s = .next (s.reply r) →
    (i.opcode ∉ [Opcode.u384FromBe, Opcode.u384ToBe] → r.r0.toNat < 2 ^ 256) ∧
    (i.opcode ∈ [Opcode.divmod128, Opcode.divmod192, Opcode.umin, Opcode.umax, Opcode.ceil32,
        Opcode.uintFromBe, Opcode.u256ToUint, Opcode.taylor] →
      r.r0.toNat < 2 ^ 252 ∧ r.r1.toNat < 2 ^ 252)

/-- A frame with op 0x10 is DIVMOD128 of A[255:0] and B_[255:0]. A zero divisor or one above 2^128
is answered DivisionError; else a dividend of 2^252 or more is answered ValueError; else a quotient
of 2^128 or more is answered DivisionError; else the answer is OK with the quotient in R0 and the
remainder in R1. Nothing else changes. (R101) -/
def Obligations.Divmod128Divides : Prop :=
  (∀ f : CommandFrame, f.extractLsb' 0 8 = 0x10 →
    decode f = .ok (.divmod128 (f.extractLsb' 16 256) (f.extractLsb' 400 256))) ∧
  ∀ (value div : UintField) (s : State),
    (div.toNat = 0 ∨ 2 ^ 128 < div.toNat →
      exec (.divmod128 value div) s = .next (s.reply ⟨0x01, 0, 0, 0⟩)) ∧
    (0 < div.toNat → div.toNat ≤ 2 ^ 128 → 2 ^ 252 ≤ value.toNat →
      exec (.divmod128 value div) s = .next (s.reply ⟨0x03, 0, 0, 0⟩)) ∧
    (0 < div.toNat → div.toNat ≤ 2 ^ 128 → value.toNat < 2 ^ 252 →
      2 ^ 128 ≤ value.toNat / div.toNat →
      exec (.divmod128 value div) s = .next (s.reply ⟨0x01, 0, 0, 0⟩)) ∧
    (0 < div.toNat → div.toNat ≤ 2 ^ 128 → value.toNat < 2 ^ 252 →
      value.toNat / div.toNat < 2 ^ 128 →
      exec (.divmod128 value div) s = .next (s.reply ⟨0x00, 0,
        BitVec.ofNat 384 (value.toNat / div.toNat), BitVec.ofNat 384 (value.toNat % div.toNat)⟩))

/-- A frame with op 0x11 is DIVMOD192 of A[255:0] and B_[255:0]. A zero divisor or one above 2^192
is answered DivisionError; else a dividend of 2^252 or more is answered ValueError; else a quotient
of 2^192 or more is answered DivisionError; else the answer is OK with the quotient in R0 and the
remainder in R1. Nothing else changes. (R102) -/
def Obligations.Divmod192Divides : Prop :=
  (∀ f : CommandFrame, f.extractLsb' 0 8 = 0x11 →
    decode f = .ok (.divmod192 (f.extractLsb' 16 256) (f.extractLsb' 400 256))) ∧
  ∀ (value div : UintField) (s : State),
    (div.toNat = 0 ∨ 2 ^ 192 < div.toNat →
      exec (.divmod192 value div) s = .next (s.reply ⟨0x01, 0, 0, 0⟩)) ∧
    (0 < div.toNat → div.toNat ≤ 2 ^ 192 → 2 ^ 252 ≤ value.toNat →
      exec (.divmod192 value div) s = .next (s.reply ⟨0x03, 0, 0, 0⟩)) ∧
    (0 < div.toNat → div.toNat ≤ 2 ^ 192 → value.toNat < 2 ^ 252 →
      2 ^ 192 ≤ value.toNat / div.toNat →
      exec (.divmod192 value div) s = .next (s.reply ⟨0x01, 0, 0, 0⟩)) ∧
    (0 < div.toNat → div.toNat ≤ 2 ^ 192 → value.toNat < 2 ^ 252 →
      value.toNat / div.toNat < 2 ^ 192 →
      exec (.divmod192 value div) s = .next (s.reply ⟨0x00, 0,
        BitVec.ofNat 384 (value.toNat / div.toNat), BitVec.ofNat 384 (value.toNat % div.toNat)⟩))

/-- For every DIVMOD128 or DIVMOD192 answered with status OK, with q and r the numbers in R0 and R1:
value = q*div + r, r < div and q < 2^W. (R103) -/
def Obligations.DivmodResultsAreExact : Prop :=
  ∀ (value div : UintField) (s : State) (r : Response), r.status = 0x00 →
    (exec (.divmod128 value div) s = .next (s.reply r) →
      value.toNat = r.r0.toNat * div.toNat + r.r1.toNat ∧ r.r1.toNat < div.toNat ∧
        r.r0.toNat < 2 ^ 128) ∧
    (exec (.divmod192 value div) s = .next (s.reply r) →
      value.toNat = r.r0.toNat * div.toNat + r.r1.toNat ∧ r.r1.toNat < div.toNat ∧
        r.r0.toNat < 2 ^ 192)

/-- Frames with op 0x20 and 0x21 are UMIN and UMAX of A[255:0] and B_[255:0]. If either operand is
2^252 or more both are answered ValueError; else UMIN answers a if a <= b and b otherwise, UMAX
answers a if b <= a and b otherwise, with R1 and rlen 0. Nothing else changes. (R110, R111) -/
def Obligations.ComparatorsPickAnOperand : Prop :=
  (∀ f : CommandFrame, f.extractLsb' 0 8 = 0x20 →
    decode f = .ok (.umin (f.extractLsb' 16 256) (f.extractLsb' 400 256))) ∧
  (∀ f : CommandFrame, f.extractLsb' 0 8 = 0x21 →
    decode f = .ok (.umax (f.extractLsb' 16 256) (f.extractLsb' 400 256))) ∧
  ∀ (a b : UintField) (s : State),
    (2 ^ 252 ≤ a.toNat ∨ 2 ^ 252 ≤ b.toNat →
      exec (.umin a b) s = .next (s.reply ⟨0x03, 0, 0, 0⟩) ∧
      exec (.umax a b) s = .next (s.reply ⟨0x03, 0, 0, 0⟩)) ∧
    (a.toNat < 2 ^ 252 → b.toNat < 2 ^ 252 →
      exec (.umin a b) s = .next (s.reply
        ⟨0x00, 0, BitVec.ofNat 384 (if a.toNat ≤ b.toNat then a.toNat else b.toNat), 0⟩) ∧
      exec (.umax a b) s = .next (s.reply
        ⟨0x00, 0, BitVec.ofNat 384 (if b.toNat ≤ a.toNat then a.toNat else b.toNat), 0⟩))

/-- For in-domain operands both commands are answered OK with results lo and hi that are each one of
the operands, lo <= hi, and lo + hi = a + b. (derived from 41_comparators.md R112) -/
def Obligations.ComparatorsAreMinAndMax : Prop :=
  ∀ (a b : UintField) (s : State), a.toNat < 2 ^ 252 → b.toNat < 2 ^ 252 →
    ∃ lo hi : Slot,
      exec (.umin a b) s = .next (s.reply ⟨0x00, 0, lo, 0⟩) ∧
      exec (.umax a b) s = .next (s.reply ⟨0x00, 0, hi, 0⟩) ∧
      (lo.toNat = a.toNat ∨ lo.toNat = b.toNat) ∧ (hi.toNat = a.toNat ∨ hi.toNat = b.toNat) ∧
      lo.toNat ≤ hi.toNat ∧ lo.toNat + hi.toNat = a.toNat + b.toNat

/-- A frame with op 0x30 is CEIL32 of A[255:0]. An operand of 2^252 or more is answered ValueError;
one above 2^252 - 32 is answered OverflowError; else the answer is OK with the operand if it is a
multiple of 32 and value + (32 - value mod 32) otherwise, which is the least multiple of 32 that is
not below it. Nothing else changes. (R120) -/
def Obligations.Ceil32RoundsUp : Prop :=
  (∀ f : CommandFrame, f.extractLsb' 0 8 = 0x30 →
    decode f = .ok (.ceil32 (f.extractLsb' 16 256))) ∧
  ∀ (value : UintField) (s : State),
    (2 ^ 252 ≤ value.toNat → exec (.ceil32 value) s = .next (s.reply ⟨0x03, 0, 0, 0⟩)) ∧
    (value.toNat < 2 ^ 252 → 2 ^ 252 - 32 < value.toNat →
      exec (.ceil32 value) s = .next (s.reply ⟨0x02, 0, 0, 0⟩)) ∧
    (value.toNat ≤ 2 ^ 252 - 32 → ∃ p : Slot,
      exec (.ceil32 value) s = .next (s.reply ⟨0x00, 0, p, 0⟩) ∧
      p.toNat = (if value.toNat % 32 = 0 then value.toNat
        else value.toNat + (32 - value.toNat % 32)) ∧
      p.toNat % 32 = 0 ∧ value.toNat ≤ p.toNat ∧
      ∀ k : Nat, k % 32 = 0 → value.toNat ≤ k → p.toNat ≤ k)

/-- A frame with op 0x31 is BITLEN of A[255:0]. An operand of 2^252 or more is answered
OutOfRangeError; else the answer is OK with n at most 252 in R0 such that n = 0 if the operand is 0,
and n >= 1 with 2^(n-1) <= value < 2^n otherwise. Nothing else changes. (R121, R125) -/
def Obligations.BitlenCountsBits : Prop :=
  (∀ f : CommandFrame, f.extractLsb' 0 8 = 0x31 →
    decode f = .ok (.bitlen (f.extractLsb' 16 256))) ∧
  ∀ (value : UintField) (s : State),
    (2 ^ 252 ≤ value.toNat → exec (.bitlen value) s = .next (s.reply ⟨0x04, 0, 0, 0⟩)) ∧
    (value.toNat < 2 ^ 252 → ∃ n : Nat, n ≤ 252 ∧
      exec (.bitlen value) s = .next (s.reply ⟨0x00, 0, BitVec.ofNat 384 n, 0⟩) ∧
      (value.toNat = 0 → n = 0) ∧
      (value.toNat ≠ 0 → 1 ≤ n ∧ 2 ^ (n - 1) ≤ value.toNat ∧ value.toNat < 2 ^ n))

/-- With clz_256(value) the number of zero bits above the highest one bit of the 256-bit field (256
for zero): BITLEN is answered OutOfRangeError if clz_256(value) < 4, which is when one of the bits
255 to 252 is set, and OK with 256 - clz_256(value) otherwise. (R124) -/
def Obligations.BitlenIsALeadingZeroCounter : Prop :=
  ∀ (value : UintField) (s : State),
    (value.clz.toNat < 4 ↔ ∃ j, 252 ≤ j ∧ j ≤ 255 ∧ value.getLsbD j = true) ∧
    (value.clz.toNat < 4 → exec (.bitlen value) s = .next (s.reply ⟨0x04, 0, 0, 0⟩)) ∧
    (4 ≤ value.clz.toNat → exec (.bitlen value) s =
      .next (s.reply ⟨0x00, 0, BitVec.ofNat 384 (256 - value.clz.toNat), 0⟩))

/-- Frames with op 0x32, 0x33, 0x46 are these operations on the first len lanes of A (no lane when
len > 48). A len above 31, 8, 32 is answered ValueError whatever the lanes hold; else the answer is
OK with be(s) in R0, for every sequence. Nothing else changes. (R122, R123, R136) -/
def Obligations.BoundedDecodersReadBigEndian : Prop :=
  (∀ f : CommandFrame, f.extractLsb' 0 8 = 0x32 →
    decode f = .ok (.uintFromBe (f.extractLsb' 8 8)
      (if (f.extractLsb' 8 8).toNat ≤ 48 then
        (List.range (f.extractLsb' 8 8).toNat).map fun k => f.extractLsb' (16 + 8 * k) 8 else []))) ∧
  (∀ f : CommandFrame, f.extractLsb' 0 8 = 0x33 →
    decode f = .ok (.u64FromBe (f.extractLsb' 8 8)
      (if (f.extractLsb' 8 8).toNat ≤ 48 then
        (List.range (f.extractLsb' 8 8).toNat).map fun k => f.extractLsb' (16 + 8 * k) 8 else []))) ∧
  (∀ f : CommandFrame, f.extractLsb' 0 8 = 0x46 →
    decode f = .ok (.u256FromBe (f.extractLsb' 8 8)
      (if (f.extractLsb' 8 8).toNat ≤ 48 then
        (List.range (f.extractLsb' 8 8).toNat).map fun k => f.extractLsb' (16 + 8 * k) 8 else []))) ∧
  ∀ (len : Byte) (bytes : List Byte) (s : State),
    (31 < len.toNat → exec (.uintFromBe len bytes) s = .next (s.reply ⟨0x03, 0, 0, 0⟩)) ∧
    (len.toNat ≤ 31 → exec (.uintFromBe len bytes) s =
      .next (s.reply ⟨0x00, 0, BitVec.ofNat 384 (be bytes), 0⟩)) ∧
    (8 < len.toNat → exec (.u64FromBe len bytes) s = .next (s.reply ⟨0x03, 0, 0, 0⟩)) ∧
    (len.toNat ≤ 8 → exec (.u64FromBe len bytes) s =
      .next (s.reply ⟨0x00, 0, BitVec.ofNat 384 (be bytes), 0⟩)) ∧
    (32 < len.toNat → exec (.u256FromBe len bytes) s = .next (s.reply ⟨0x03, 0, 0, 0⟩)) ∧
    (len.toNat ≤ 32 → exec (.u256FromBe len bytes) s =
      .next (s.reply ⟨0x00, 0, BitVec.ofNat 384 (be bytes), 0⟩))

/-- Frames with op 0x40 and 0x41 are these operations on 32 lanes of A and on A[255:0]. The decoder
of 32 bytes s answers OK with low = be(s[16..31]) and high = be(s[0..15]), rlen 0. The encoder of m
answers OK, rlen 32, with byte k = (m div 256^(31-k)) mod 256 in lane k and zero above. Nothing else
changes. (R130, R131) -/
def Obligations.Be32CodecReversesBytes : Prop :=
  (∀ f : CommandFrame, f.extractLsb' 0 8 = 0x40 →
    decode f = .ok (.u256FromBe32 ((List.range 32).map fun k => f.extractLsb' (16 + 8 * k) 8))) ∧
  (∀ f : CommandFrame, f.extractLsb' 0 8 = 0x41 →
    decode f = .ok (.u256ToBe32 (f.extractLsb' 16 256))) ∧
  (∀ (bytes : List Byte) (s : State), bytes.length = 32 → ∃ r0 : Slot,
    exec (.u256FromBe32 bytes) s = .next (s.reply ⟨0x00, 0, r0, 0⟩) ∧
    r0.toNat = be bytes ∧
    (r0.extractLsb' 0 128).toNat = be (bytes.drop 16) ∧
    (r0.extractLsb' 128 128).toNat = be (bytes.take 16)) ∧
  (∀ (m : U256) (s : State), ∃ r0 : Slot,
    exec (.u256ToBe32 m) s = .next (s.reply ⟨0x00, 32, r0, 0⟩) ∧
    (∀ k < 32, r0.extractLsb' (8 * k) 8 = BitVec.ofNat 8 (m.toNat / 256 ^ (31 - k) % 256)) ∧
    r0.extractLsb' 256 128 = 0)

/-- Frames with op 0x42 and 0x43 are these operations on 32 lanes of A and on A[255:0]. The decoder
answers OK with le(s) in R0, so that the 256 bits of the lanes are copied, rlen 0; the encoder of m
answers OK, rlen 32, with le_bytes(m, 32), which are the bits of m. Nothing else changes. (R132,
R133) -/
def Obligations.Le32CodecCopiesBits : Prop :=
  (∀ f : CommandFrame, f.extractLsb' 0 8 = 0x42 →
    decode f = .ok (.u256FromLe32 ((List.range 32).map fun k => f.extractLsb' (16 + 8 * k) 8))) ∧
  (∀ f : CommandFrame, f.extractLsb' 0 8 = 0x43 →
    decode f = .ok (.u256ToLe32 (f.extractLsb' 16 256))) ∧
  (∀ (bytes : List Byte) (s : State), bytes.length = 32 → ∃ r0 : Slot,
    exec (.u256FromLe32 bytes) s = .next (s.reply ⟨0x00, 0, r0, 0⟩) ∧
    r0.toNat = le bytes ∧
    (r0.extractLsb' 0 128).toNat = le (bytes.take 16) ∧
    (r0.extractLsb' 128 128).toNat = le (bytes.drop 16)) ∧
  (∀ (x : BitVec 256) (s : State),
    exec (.u256FromLe32 ((List.range 32).map fun k => x.extractLsb' (8 * k) 8)) s =
      .next (s.reply ⟨0x00, 0, x.setWidth 384, 0⟩)) ∧
  (∀ (m : U256) (s : State),
    exec (.u256ToLe32 m) s = .next (s.reply ⟨0x00, 32, m.setWidth 384, 0⟩))

/-- Frames with op 0x44 and 0x45 are these operations on 20 lanes of A and on A[255:0]. The decoder
of 20 bytes s answers OK with high = be(s[0..3]) and low = be(s[4..19]). The encoder is answered
OverflowError if the high limb is above 2^32 - 1, and OK, rlen 20, with byte k = (m div 256^(19-k))
mod 256 in lane k and zero above otherwise. Nothing else changes. (R134, R135) -/
def Obligations.Be20CodecSplitsAtFourBytes : Prop :=
  (∀ f : CommandFrame, f.extractLsb' 0 8 = 0x44 →
    decode f = .ok (.u256FromBe20 ((List.range 20).map fun k => f.extractLsb' (16 + 8 * k) 8))) ∧
  (∀ f : CommandFrame, f.extractLsb' 0 8 = 0x45 →
    decode f = .ok (.u256ToBe20 (f.extractLsb' 16 256))) ∧
  (∀ (bytes : List Byte) (s : State), bytes.length = 20 → ∃ r0 : Slot,
    exec (.u256FromBe20 bytes) s = .next (s.reply ⟨0x00, 0, r0, 0⟩) ∧
    r0.toNat = be bytes ∧
    (r0.extractLsb' 0 128).toNat = be (bytes.drop 4) ∧
    (r0.extractLsb' 128 128).toNat = be (bytes.take 4)) ∧
  (∀ (m : U256) (s : State),
    (2 ^ 32 - 1 < (m.extractLsb' 128 128).toNat →
      exec (.u256ToBe20 m) s = .next (s.reply ⟨0x02, 0, 0, 0⟩)) ∧
    ((m.extractLsb' 128 128).toNat ≤ 2 ^ 32 - 1 → ∃ r0 : Slot,
      exec (.u256ToBe20 m) s = .next (s.reply ⟨0x00, 20, r0, 0⟩) ∧
      (∀ k < 20, r0.extractLsb' (8 * k) 8 = BitVec.ofNat 8 (m.toNat / 256 ^ (19 - k) % 256)) ∧
      r0.extractLsb' 160 224 = 0))

/-- For every frame with op 0x40 or 0x41, lane k of R0 is lane 31-k of A for k below 32, with rlen 0
and 32; with op 0x42 or 0x43, R0[255:0] is A[255:0], with rlen 0 and 32; in all four R0[383:256] is
0 and the status is OK. (R137) -/
def Obligations.ThirtyTwoByteCodecsAtBitLevel : Prop :=
  ∀ (f : CommandFrame) (cs : List CommandFrame) (rs : List ResponseFrame),
    (f.op = 0x40 → ∃ r0 : Slot,
      step ⟨f :: cs, rs⟩ = .next ⟨cs, rs ++ [(⟨0x00, 0, r0, 0⟩ : Response).pack]⟩ ∧
      (∀ k < 32, laneOf r0 k = laneOf f.slotA (31 - k)) ∧ r0.extractLsb' 256 128 = 0) ∧
    (f.op = 0x41 → ∃ r0 : Slot,
      step ⟨f :: cs, rs⟩ = .next ⟨cs, rs ++ [(⟨0x00, 32, r0, 0⟩ : Response).pack]⟩ ∧
      (∀ k < 32, laneOf r0 k = laneOf f.slotA (31 - k)) ∧ r0.extractLsb' 256 128 = 0) ∧
    (f.op = 0x42 → ∃ r0 : Slot,
      step ⟨f :: cs, rs⟩ = .next ⟨cs, rs ++ [(⟨0x00, 0, r0, 0⟩ : Response).pack]⟩ ∧
      r0.extractLsb' 0 256 = f.slotA.extractLsb' 0 256 ∧ r0.extractLsb' 256 128 = 0) ∧
    (f.op = 0x43 → ∃ r0 : Slot,
      step ⟨f :: cs, rs⟩ = .next ⟨cs, rs ++ [(⟨0x00, 32, r0, 0⟩ : Response).pack]⟩ ∧
      r0.extractLsb' 0 256 = f.slotA.extractLsb' 0 256 ∧ r0.extractLsb' 256 128 = 0)

/-- For every frame with op 0x44: lane k of R0 is lane 19-k of A for k below 16, lane 16+k is lane
3-k for k below 4, R0[383:160] is 0. For op 0x45 when it does not fault: lane k of R0 is lane 19-k
of A for k from 4 to 19, and lane 16+(3-k) of A for k from 0 to 3, R0[383:160] is 0. (R138) -/
def Obligations.TwentyByteCodecsAtBitLevel : Prop :=
  ∀ (f : CommandFrame) (cs : List CommandFrame) (rs : List ResponseFrame),
    (f.op = 0x44 → ∃ r0 : Slot,
      step ⟨f :: cs, rs⟩ = .next ⟨cs, rs ++ [(⟨0x00, 0, r0, 0⟩ : Response).pack]⟩ ∧
      (∀ k < 16, laneOf r0 k = laneOf f.slotA (19 - k)) ∧
      (∀ k < 4, r0.extractLsb' (128 + 8 * k) 8 = laneOf f.slotA (3 - k)) ∧
      r0.extractLsb' 160 224 = 0) ∧
    ((f.slotA.extractLsb' 128 128).toNat ≤ 2 ^ 32 - 1 → f.op = 0x45 → ∃ r0 : Slot,
      step ⟨f :: cs, rs⟩ = .next ⟨cs, rs ++ [(⟨0x00, 20, r0, 0⟩ : Response).pack]⟩ ∧
      (∀ k < 20, 4 ≤ k → laneOf r0 k = laneOf f.slotA (19 - k)) ∧
      (∀ k < 4, laneOf r0 k = f.slotA.extractLsb' (128 + 8 * (3 - k)) 8) ∧
      r0.extractLsb' 160 224 = 0)

/-- For the 32-byte big-endian, the 32-byte little-endian and the 20-byte codec: the encoder on the
decoder result gives the slot image of the bytes, without a fault; and the decoder on the encoder
result gives the number back (for the 20-byte codec for every m below 2^160). (R139) -/
def Obligations.ThirtyTwoAndTwentyByteRoundTrips : Prop :=
  (∀ (bytes : List Byte) (s t : State), bytes.length = 32 → ∃ r0 : Slot,
    exec (.u256FromBe32 bytes) s = .next (s.reply ⟨0x00, 0, r0, 0⟩) ∧
    exec (.u256ToBe32 (u256Of r0)) t = .next (t.reply ⟨0x00, 32, slotImage bytes, 0⟩)) ∧
  (∀ (bytes : List Byte) (s t : State), bytes.length = 32 → ∃ r0 : Slot,
    exec (.u256FromLe32 bytes) s = .next (s.reply ⟨0x00, 0, r0, 0⟩) ∧
    exec (.u256ToLe32 (u256Of r0)) t = .next (t.reply ⟨0x00, 32, slotImage bytes, 0⟩)) ∧
  (∀ (bytes : List Byte) (s t : State), bytes.length = 20 → ∃ r0 : Slot,
    exec (.u256FromBe20 bytes) s = .next (s.reply ⟨0x00, 0, r0, 0⟩) ∧
    exec (.u256ToBe20 (u256Of r0)) t = .next (t.reply ⟨0x00, 20, slotImage bytes, 0⟩)) ∧
  (∀ (m : U256) (s t : State), ∃ r0 : Slot,
    exec (.u256ToBe32 m) s = .next (s.reply ⟨0x00, 32, r0, 0⟩) ∧
    exec (.u256FromBe32 (bytesOf r0 32)) t = .next (t.reply ⟨0x00, 0, m.setWidth 384, 0⟩)) ∧
  (∀ (m : U256) (s t : State), ∃ r0 : Slot,
    exec (.u256ToLe32 m) s = .next (s.reply ⟨0x00, 32, r0, 0⟩) ∧
    exec (.u256FromLe32 (bytesOf r0 32)) t = .next (t.reply ⟨0x00, 0, m.setWidth 384, 0⟩)) ∧
  (∀ (m : U256) (s t : State), m.toNat < 2 ^ 160 → ∃ r0 : Slot,
    exec (.u256ToBe20 m) s = .next (s.reply ⟨0x00, 20, r0, 0⟩) ∧
    exec (.u256FromBe20 (bytesOf r0 20)) t = .next (t.reply ⟨0x00, 0, m.setWidth 384, 0⟩))

/-- On the same 32 bytes U256_FROM_BE with len 32 and U256_FROM_BE32 give the same next state; on
the same 20 bytes U256_FROM_BE with len 20 and U256_FROM_BE20 do. There are no pseudo-instructions:
every constructor is the operation of its own opcode byte. (R76) -/
def Obligations.VariableDecoderAgreesWithFixedOnes : Prop :=
  (∀ (bytes : List Byte) (s : State), bytes.length = 32 →
    exec (.u256FromBe 32 bytes) s = exec (.u256FromBe32 bytes) s) ∧
  (∀ (bytes : List Byte) (s : State), bytes.length = 20 →
    exec (.u256FromBe 20 bytes) s = exec (.u256FromBe20 bytes) s) ∧
  (∀ o p : Opcode, o.byte = p.byte → o = p)

/-- A frame with op 0x50 is U256_ADD of A[255:0] and B_[255:0]. If a + b is 2^256 or more the answer
is OverflowError, else OK with a + b in R0. Nothing else changes. (R150) -/
def Obligations.AddIsCheckedAt256Bits : Prop :=
  (∀ f : CommandFrame, f.extractLsb' 0 8 = 0x50 →
    decode f = .ok (.u256Add (f.extractLsb' 16 256) (f.extractLsb' 400 256))) ∧
  ∀ (a b : U256) (s : State),
    (2 ^ 256 ≤ a.toNat + b.toNat → exec (.u256Add a b) s = .next (s.reply ⟨0x02, 0, 0, 0⟩)) ∧
    (a.toNat + b.toNat < 2 ^ 256 → exec (.u256Add a b) s =
      .next (s.reply ⟨0x00, 0, BitVec.ofNat 384 (a.toNat + b.toNat), 0⟩))

/-- A frame with op 0x51 is U256_ADDC of A[255:0] and B_[255:0]. The answer is always OK, with (a +
b) mod 2^256 in R0 and (a + b) div 2^256 in R1, so a + b = R1*2^256 + R0 and R1 is 0 or 1; it is 0
exactly when U256_ADD of the same operands does not fault. Nothing else changes. (R151) -/
def Obligations.AddcReturnsSumAndCarry : Prop :=
  (∀ f : CommandFrame, f.extractLsb' 0 8 = 0x51 →
    decode f = .ok (.u256Addc (f.extractLsb' 16 256) (f.extractLsb' 400 256))) ∧
  ∀ (a b : U256) (s : State), ∃ sum carry : Slot,
    exec (.u256Addc a b) s = .next (s.reply ⟨0x00, 0, sum, carry⟩) ∧
    a.toNat + b.toNat = carry.toNat * 2 ^ 256 + sum.toNat ∧
    sum.toNat < 2 ^ 256 ∧ carry.toNat ≤ 1 ∧
    (carry.toNat = 0 → exec (.u256Add a b) s = .next (s.reply ⟨0x00, 0, sum, 0⟩)) ∧
    (carry.toNat = 1 → exec (.u256Add a b) s = .next (s.reply ⟨0x02, 0, 0, 0⟩))

/-- A frame with op 0x52 is U256_SUB of A[255:0] and B_[255:0]. If a < b the answer is
OverflowError, else OK with a - b in R0. Nothing else changes. (R152) -/
def Obligations.SubIsCheckedForUnderflow : Prop :=
  (∀ f : CommandFrame, f.extractLsb' 0 8 = 0x52 →
    decode f = .ok (.u256Sub (f.extractLsb' 16 256) (f.extractLsb' 400 256))) ∧
  ∀ (a b : U256) (s : State),
    (a.toNat < b.toNat → exec (.u256Sub a b) s = .next (s.reply ⟨0x02, 0, 0, 0⟩)) ∧
    (b.toNat ≤ a.toNat → exec (.u256Sub a b) s =
      .next (s.reply ⟨0x00, 0, BitVec.ofNat 384 (a.toNat - b.toNat), 0⟩))

/-- A frame with op 0x53 is U256_MUL of A[255:0] and B_[255:0]. If a * b is 2^256 or more the answer
is OverflowError, else OK with a * b in R0. Nothing else changes. (R153) -/
def Obligations.MulIsCheckedAt256Bits : Prop :=
  (∀ f : CommandFrame, f.extractLsb' 0 8 = 0x53 →
    decode f = .ok (.u256Mul (f.extractLsb' 16 256) (f.extractLsb' 400 256))) ∧
  ∀ (a b : U256) (s : State),
    (2 ^ 256 ≤ a.toNat * b.toNat → exec (.u256Mul a b) s = .next (s.reply ⟨0x02, 0, 0, 0⟩)) ∧
    (a.toNat * b.toNat < 2 ^ 256 → exec (.u256Mul a b) s =
      .next (s.reply ⟨0x00, 0, BitVec.ofNat 384 (a.toNat * b.toNat), 0⟩))

/-- For a + b below 2^256 neither U256_ADD a, b nor U256_SUB of its result and b faults, and the
second result is a; U256_ADD 2^256-1, 1 is answered OverflowError and U256_ADD 2^256-2, 1 is
2^256-1. (R160) -/
def Obligations.AddThenSubGivesBack : Prop :=
  (∀ (a b : U256) (s t : State), a.toNat + b.toNat < 2 ^ 256 → ∃ c : Slot,
    exec (.u256Add a b) s = .next (s.reply ⟨0x00, 0, c, 0⟩) ∧
    exec (.u256Sub (u256Of c) b) t = .next (t.reply ⟨0x00, 0, a.setWidth 384, 0⟩)) ∧
  (∀ s : State,
    exec (.u256Add (BitVec.ofNat 256 (2 ^ 256 - 1)) 1) s = .next (s.reply ⟨0x02, 0, 0, 0⟩) ∧
    exec (.u256Add (BitVec.ofNat 256 (2 ^ 256 - 2)) 1) s =
      .next (s.reply ⟨0x00, 0, BitVec.ofNat 384 (2 ^ 256 - 1), 0⟩))

/-- A frame with op 0x54 is U256_LE of A[255:0] and B_[255:0]. The answer is OK with 1 in R0 if a <=
b and 0 otherwise; a <= b is the same as high(a) < high(b), or high(a) = high(b) and low(a) <=
low(b). Nothing else changes. (R154) -/
def Obligations.LeOrdersByHighLimbFirst : Prop :=
  (∀ f : CommandFrame, f.extractLsb' 0 8 = 0x54 →
    decode f = .ok (.u256Le (f.extractLsb' 16 256) (f.extractLsb' 400 256))) ∧
  ∀ (a b : U256) (s : State),
    exec (.u256Le a b) s = .next (s.reply ⟨0x00, 0, if a.toNat ≤ b.toNat then 1 else 0, 0⟩) ∧
    (a.toNat ≤ b.toNat ↔ (a.extractLsb' 128 128).toNat < (b.extractLsb' 128 128).toNat ∨
      ((a.extractLsb' 128 128).toNat = (b.extractLsb' 128 128).toNat ∧
        (a.extractLsb' 0 128).toNat ≤ (b.extractLsb' 0 128).toNat))

/-- Frames with op 0x55 and 0x56 are U256_MIN and U256_MAX of A[255:0] and B_[255:0]. Both are
answered OK: MIN with a if a <= b and b otherwise, MAX with a if b <= a and b otherwise. Nothing
else changes. (R155, R156) -/
def Obligations.U256MinMaxPickAnOperand : Prop :=
  (∀ f : CommandFrame, f.extractLsb' 0 8 = 0x55 →
    decode f = .ok (.u256Min (f.extractLsb' 16 256) (f.extractLsb' 400 256))) ∧
  (∀ f : CommandFrame, f.extractLsb' 0 8 = 0x56 →
    decode f = .ok (.u256Max (f.extractLsb' 16 256) (f.extractLsb' 400 256))) ∧
  ∀ (a b : U256) (s : State),
    exec (.u256Min a b) s =
      .next (s.reply ⟨0x00, 0, (if a.toNat ≤ b.toNat then a else b).setWidth 384, 0⟩) ∧
    exec (.u256Max a b) s =
      .next (s.reply ⟨0x00, 0, (if b.toNat ≤ a.toNat then a else b).setWidth 384, 0⟩)

/-- A frame with op 0x57 is U256_EQ of A[255:0] and B_[255:0]. The answer is OK with 1 in R0 if the
low and the high limbs are equal and 0 otherwise; limb equality is equality of the magnitudes, and
is U256_LE in both directions. Nothing else changes. (R157) -/
def Obligations.EqComparesLimbs : Prop :=
  (∀ f : CommandFrame, f.extractLsb' 0 8 = 0x57 →
    decode f = .ok (.u256Eq (f.extractLsb' 16 256) (f.extractLsb' 400 256))) ∧
  ∀ (a b : U256) (s : State),
    (a.extractLsb' 0 128 = b.extractLsb' 0 128 ∧ a.extractLsb' 128 128 = b.extractLsb' 128 128 →
      exec (.u256Eq a b) s = .next (s.reply ⟨0x00, 0, 1, 0⟩)) ∧
    (¬(a.extractLsb' 0 128 = b.extractLsb' 0 128 ∧
        a.extractLsb' 128 128 = b.extractLsb' 128 128) →
      exec (.u256Eq a b) s = .next (s.reply ⟨0x00, 0, 0, 0⟩)) ∧
    (a.extractLsb' 0 128 = b.extractLsb' 0 128 ∧ a.extractLsb' 128 128 = b.extractLsb' 128 128 ↔
      a.toNat = b.toNat) ∧
    (exec (.u256Eq a b) s = .next (s.reply ⟨0x00, 0, 1, 0⟩) ↔
      exec (.u256Le a b) s = .next (s.reply ⟨0x00, 0, 1, 0⟩) ∧
      exec (.u256Le b a) s = .next (s.reply ⟨0x00, 0, 1, 0⟩))

/-- Frames with op 0x58 and 0x59 are these operations on A[255:0]. An operand of 2^252 or more is
answered ValueError by both, else both are answered OK with the operand itself in R0. Nothing else
changes. (R158, R159) -/
def Obligations.UintConversionsKeepTheValue : Prop :=
  (∀ f : CommandFrame, f.extractLsb' 0 8 = 0x58 →
    decode f = .ok (.u256FromUint (f.extractLsb' 16 256))) ∧
  (∀ f : CommandFrame, f.extractLsb' 0 8 = 0x59 →
    decode f = .ok (.u256ToUint (f.extractLsb' 16 256))) ∧
  ∀ (v : BitVec 256) (s : State),
    (2 ^ 252 ≤ v.toNat →
      exec (.u256FromUint v) s = .next (s.reply ⟨0x03, 0, 0, 0⟩) ∧
      exec (.u256ToUint v) s = .next (s.reply ⟨0x03, 0, 0, 0⟩)) ∧
    (v.toNat < 2 ^ 252 →
      exec (.u256FromUint v) s = .next (s.reply ⟨0x00, 0, BitVec.ofNat 384 v.toNat, 0⟩) ∧
      exec (.u256ToUint v) s = .next (s.reply ⟨0x00, 0, BitVec.ofNat 384 v.toNat, 0⟩))

/-- Frames with op 0x60, 0x61, 0x64 are these operations on A (and B_). They are always answered OK:
ISZERO with 1 if A = 0, ISONE with 1 if A = 1, EQ with 1 if A = B_, each 0 otherwise; and the whole-
slot tests are the tests on the four limbs. Nothing else changes. (R170, R171, R174) -/
def Obligations.U384TestsExamineEveryLimb : Prop :=
  (∀ f : CommandFrame, f.extractLsb' 0 8 = 0x60 →
    decode f = .ok (.u384Iszero (f.extractLsb' 16 384))) ∧
  (∀ f : CommandFrame, f.extractLsb' 0 8 = 0x61 →
    decode f = .ok (.u384Isone (f.extractLsb' 16 384))) ∧
  (∀ f : CommandFrame, f.extractLsb' 0 8 = 0x64 →
    decode f = .ok (.u384Eq (f.extractLsb' 16 384) (f.extractLsb' 400 384))) ∧
  (∀ (x y : U384) (s : State),
    exec (.u384Iszero x) s = .next (s.reply ⟨0x00, 0, if x = 0 then 1 else 0, 0⟩) ∧
    exec (.u384Isone x) s = .next (s.reply ⟨0x00, 0, if x = 1 then 1 else 0, 0⟩) ∧
    exec (.u384Eq x y) s = .next (s.reply ⟨0x00, 0, if x = y then 1 else 0, 0⟩)) ∧
  (∀ x y : U384, x = y ↔
    x.extractLsb' 0 96 = y.extractLsb' 0 96 ∧ x.extractLsb' 96 96 = y.extractLsb' 96 96 ∧
    x.extractLsb' 192 96 = y.extractLsb' 192 96 ∧ x.extractLsb' 288 96 = y.extractLsb' 288 96)

/-- A frame with op 0x62 is U384_FROM_BE on the first len lanes of A. A len above 48 is answered
ValueError whatever the lanes hold; else, for the sequence s of n = len bytes, the answer is OK with
be(s) in R0, whose limbs are d0 = be(s[max(0,n-12)..n-1]), d1 = be(s[max(0,n-24)..n-13]), d2 =
be(s[max(0,n-36)..n-25]), d3 = be(s[0..n-37]). Nothing else changes. (R172) -/
def Obligations.U384FromBeDistributesBytesOverLimbs : Prop :=
  (∀ f : CommandFrame, f.extractLsb' 0 8 = 0x62 →
    decode f = .ok (.u384FromBe (f.extractLsb' 8 8)
      (if (f.extractLsb' 8 8).toNat ≤ 48 then
        (List.range (f.extractLsb' 8 8).toNat).map fun k => f.extractLsb' (16 + 8 * k) 8 else []))) ∧
  (∀ (len : Byte) (bytes : List Byte) (s : State), 48 < len.toNat →
    exec (.u384FromBe len bytes) s = .next (s.reply ⟨0x03, 0, 0, 0⟩)) ∧
  (∀ (len : Byte) (bytes : List Byte) (s : State), len.toNat ≤ 48 → bytes.length = len.toNat →
    ∃ r0 : Slot, exec (.u384FromBe len bytes) s = .next (s.reply ⟨0x00, 0, r0, 0⟩) ∧
      r0.toNat = be bytes ∧
      (r0.extractLsb' 0 96).toNat = be (bytes.drop (len.toNat - 12)) ∧
      (r0.extractLsb' 96 96).toNat =
        be ((bytes.take (len.toNat - 12)).drop (len.toNat - 24)) ∧
      (r0.extractLsb' 192 96).toNat =
        be ((bytes.take (len.toNat - 24)).drop (len.toNat - 36)) ∧
      (r0.extractLsb' 288 96).toNat = be (bytes.take (len.toNat - 36)))

/-- A frame with op 0x63 is U384_TO_BE of A with output length len. A len above 48 is answered
ValueError; else a value of 256^len or more is answered OverflowError; else the answer is OK, rlen =
len, with the slot image of the sequence whose byte k is (m div 256^(len-1-k)) mod 256, which is the
sequence of the limb by limb description. Nothing else changes. (R173) -/
def Obligations.U384ToBeEmitsLimbsUnderTheGuard : Prop :=
  (∀ f : CommandFrame, f.extractLsb' 0 8 = 0x63 →
    decode f = .ok (.u384ToBe (f.extractLsb' 16 384) (f.extractLsb' 8 8))) ∧
  ∀ (x : U384) (len : Byte) (s : State),
    (48 < len.toNat → exec (.u384ToBe x len) s = .next (s.reply ⟨0x03, 0, 0, 0⟩)) ∧
    (len.toNat ≤ 48 → 256 ^ len.toNat ≤ x.toNat →
      exec (.u384ToBe x len) s = .next (s.reply ⟨0x02, 0, 0, 0⟩)) ∧
    (len.toNat ≤ 48 → x.toNat < 256 ^ len.toNat → ∃ r0 : Slot,
      exec (.u384ToBe x len) s = .next (s.reply ⟨0x00, len, r0, 0⟩) ∧
      (∀ k < len.toNat, r0.extractLsb' (8 * k) 8 =
        BitVec.ofNat 8 (x.toNat / 256 ^ (len.toNat - 1 - k) % 256)) ∧
      (∀ k, len.toNat ≤ k → k < 48 → r0.extractLsb' (8 * k) 8 = 0) ∧
      bytesOf r0 len.toNat =
        (if 36 < len.toNat then
          beBytes (x.extractLsb' 288 96).toNat (len.toNat - 36) ++
            beBytes (x.extractLsb' 192 96).toNat 12 ++ beBytes (x.extractLsb' 96 96).toNat 12 ++
            beBytes (x.extractLsb' 0 96).toNat 12
        else if 24 < len.toNat then
          beBytes (x.extractLsb' 192 96).toNat (len.toNat - 24) ++
            beBytes (x.extractLsb' 96 96).toNat 12 ++ beBytes (x.extractLsb' 0 96).toNat 12
        else if 12 < len.toNat then
          beBytes (x.extractLsb' 96 96).toNat (len.toNat - 12) ++
            beBytes (x.extractLsb' 0 96).toNat 12
        else beBytes (x.extractLsb' 0 96).toNat len.toNat))

/-- For every n from 0 to 48 and every n-byte s the decoder and then the encoder with len = n are
answered OK and give the slot image of s with rlen n; and whenever the encoder of m at len does not
fault, the decoder on its result gives m. (R176) -/
def Obligations.U384RoundTripsAtEveryLength : Prop :=
  (∀ (len : Byte) (bytes : List Byte) (s t : State), len.toNat ≤ 48 → bytes.length = len.toNat →
    ∃ r0 : Slot, exec (.u384FromBe len bytes) s = .next (s.reply ⟨0x00, 0, r0, 0⟩) ∧
      exec (.u384ToBe r0 len) t = .next (t.reply ⟨0x00, len, slotImage bytes, 0⟩)) ∧
  (∀ (m : U384) (len : Byte) (s t : State), len.toNat ≤ 48 → m.toNat < 256 ^ len.toNat →
    ∃ r0 : Slot, exec (.u384ToBe m len) s = .next (s.reply ⟨0x00, len, r0, 0⟩) ∧
      exec (.u384FromBe len (bytesOf r0 len.toNat)) t = .next (t.reply ⟨0x00, 0, m, 0⟩))

/-- A frame with op 0x70 is TAYLOR of A[255:0], B_[255:0] and C[255:0]. (1) An operand of 2^252 or
more is answered ValueError; else (2) factor*denominator of 2^252 or more is answered OverflowError;
else the loop, as the relation of R190 and R191 without a pass limit, ends in exactly one way: if it
raises (3) or (4) the answer is that kind; if it ends with output, (5) a bad closing division is
answered DivisionError and a good one OK with output div denominator in R0. Nothing else changes.
(R190) -/
def Obligations.TaylorFollowsItsLoop : Prop :=
  (∀ f : CommandFrame, f.extractLsb' 0 8 = 0x70 →
    decode f = .ok (.taylor (f.extractLsb' 16 256) (f.extractLsb' 400 256) (f.extractLsb' 784 256))) ∧
  ∀ (factor numerator denominator : UintField) (s : State),
    (2 ^ 252 ≤ factor.toNat ∨ 2 ^ 252 ≤ numerator.toNat ∨ 2 ^ 252 ≤ denominator.toNat →
      exec (.taylor factor numerator denominator) s = .next (s.reply ⟨0x03, 0, 0, 0⟩)) ∧
    (factor.toNat < 2 ^ 252 → numerator.toNat < 2 ^ 252 → denominator.toNat < 2 ^ 252 →
      (2 ^ 252 ≤ factor.toNat * denominator.toNat →
        exec (.taylor factor numerator denominator) s = .next (s.reply ⟨0x02, 0, 0, 0⟩)) ∧
      (factor.toNat * denominator.toNat < 2 ^ 252 →
        (∃! e, Series.Evaluates numerator.toNat denominator.toNat
        ⟨0, 1, factor.toNat * denominator.toNat⟩ e) ∧
        (∀ k : ErrorKind, Series.Evaluates numerator.toNat denominator.toNat
        ⟨0, 1, factor.toNat * denominator.toNat⟩ (.error k) →
          exec (.taylor factor numerator denominator) s = .next (s.reply ⟨k.code, 0, 0, 0⟩)) ∧
        (∀ output : Nat, Series.Evaluates numerator.toNat denominator.toNat
        ⟨0, 1, factor.toNat * denominator.toNat⟩ (.ok output) →
          (denominator.toNat = 0 ∨ 2 ^ 128 < denominator.toNat ∨
            2 ^ 128 ≤ output / denominator.toNat →
            exec (.taylor factor numerator denominator) s = .next (s.reply ⟨0x01, 0, 0, 0⟩)) ∧
          (0 < denominator.toNat → denominator.toNat ≤ 2 ^ 128 →
            output / denominator.toNat < 2 ^ 128 →
            exec (.taylor factor numerator denominator) s =
              .next (s.reply ⟨0x00, 0, BitVec.ofNat 384 (output / denominator.toNat), 0⟩)))))

/-- For Uint operands: factor 0 with 0 < denominator <= 2^128 is answered OK with 0; denominator 0,
or factor 0 with denominator above 2^128, is answered DivisionError; numerator 0 with factor and
denominator nonzero, factor*denominator < 2^252, factor < 2^128 and denominator <= 2^128 is answered
OK with factor. (R195) -/
def Obligations.TaylorOfZeroOperands : Prop :=
  ∀ (factor numerator denominator : UintField) (s : State),
    factor.toNat < 2 ^ 252 → numerator.toNat < 2 ^ 252 → denominator.toNat < 2 ^ 252 →
    (factor.toNat = 0 → 0 < denominator.toNat → denominator.toNat ≤ 2 ^ 128 →
      exec (.taylor factor numerator denominator) s = .next (s.reply ⟨0x00, 0, 0, 0⟩)) ∧
    (factor.toNat = 0 → 2 ^ 128 < denominator.toNat →
      exec (.taylor factor numerator denominator) s = .next (s.reply ⟨0x01, 0, 0, 0⟩)) ∧
    (denominator.toNat = 0 →
      exec (.taylor factor numerator denominator) s = .next (s.reply ⟨0x01, 0, 0, 0⟩)) ∧
    (numerator.toNat = 0 → 0 < factor.toNat → factor.toNat < 2 ^ 128 → 0 < denominator.toNat →
      denominator.toNat ≤ 2 ^ 128 → factor.toNat * denominator.toNat < 2 ^ 252 →
      exec (.taylor factor numerator denominator) s =
        .next (s.reply ⟨0x00, 0, BitVec.ofNat 384 factor.toNat, 0⟩))

/-- From any working state with acc nonzero, output + acc below 2^252 and acc*numerator at least
2^128 (even above B) the loop ends with output + acc and in no other way; so a TAYLOR whose first
product saturates, with factor below 2^128 and denominator at most 2^128, is answered OK with
factor. (derived from 46_taylor.md R193; 90_conflicts.md C8) -/
def Obligations.TaylorSaturationKeepsTheLastTerm : Prop :=
  (∀ (numerator denominator output i acc : Nat), acc ≠ 0 → output + acc < 2 ^ 252 →
    2 ^ 128 ≤ acc * numerator →
    ∀ e, Series.Evaluates numerator denominator ⟨output, i, acc⟩ e ↔ e = .ok (output + acc)) ∧
  (∀ (factor numerator denominator : UintField) (s : State),
    factor.toNat < 2 ^ 128 → 0 < factor.toNat → 0 < denominator.toNat →
    denominator.toNat ≤ 2 ^ 128 → numerator.toNat < 2 ^ 252 →
    factor.toNat * denominator.toNat < 2 ^ 252 →
    2 ^ 128 ≤ factor.toNat * denominator.toNat * numerator.toNat →
    exec (.taylor factor numerator denominator) s =
      .next (s.reply ⟨0x00, 0, BitVec.ofNat 384 factor.toNat, 0⟩))

/-- For Uint operands and a working state with acc below 2^252: a pass that goes on has next <
2^504, denominator*i <= 2^128, i <= 2^128, and leads to acc < 2^128, output < 2^252 and i <= 2^128 +
1; a pass that ends the loop after an addition (acc not 0: it saturates) ends it with output + acc,
which is below 2^252, and one with acc = 0 adds nothing; a pass that raises, raises OverflowError
because the sum reaches 2^252 or DivisionError because the divisor is 0 or above 2^128, never for
the quotient or the dividend; and the loop starts with acc = factor*denominator, so with acc < 2^252
once check (2) has passed. (R194) -/
def Obligations.SeriesWorkingVariablesStayBounded : Prop :=
  (∀ factor denominator : Nat,
    Series.start factor denominator = ⟨0, 1, factor * denominator⟩ ∧
    (factor * denominator < 2 ^ 252 → (Series.start factor denominator).acc < 2 ^ 252)) ∧
  ∀ (numerator denominator : Nat) (σ : Series), numerator < 2 ^ 252 → denominator < 2 ^ 252 →
    σ.acc < 2 ^ 252 →
    σ.acc * numerator < 2 ^ 504 ∧
    (∀ σ', σ.pass numerator denominator = .going σ' →
      denominator * σ.i ≤ 2 ^ 128 ∧ σ.i ≤ 2 ^ 128 ∧ σ'.i ≤ 2 ^ 128 + 1 ∧
      σ'.acc < 2 ^ 128 ∧ σ'.output < 2 ^ 252) ∧
    (∀ output, σ.acc ≠ 0 → σ.pass numerator denominator = .ended output →
      output = σ.output + σ.acc ∧ output < 2 ^ 252) ∧
    (σ.acc = 0 → σ.pass numerator denominator = .ended σ.output) ∧
    (∀ k, σ.pass numerator denominator = .raised k →
      (k = .overflowError ∧ 2 ^ 252 ≤ σ.output + σ.acc) ∨
      (k = .divisionError ∧ (denominator * σ.i = 0 ∨ 2 ^ 128 < denominator * σ.i)))

/-- For Uint operands with factor*denominator below 2^252: when the loop ends with output,
factor*denominator <= output; and then with 0 < denominator <= 2^128 and factor at least 2^128 the
answer is DivisionError. (derived from 46_taylor.md R196) -/
def Obligations.TaylorOfLargeFactorFaults : Prop :=
  ∀ (factor numerator denominator : UintField) (s : State) (output : Nat),
    factor.toNat < 2 ^ 252 → numerator.toNat < 2 ^ 252 → denominator.toNat < 2 ^ 252 →
    factor.toNat * denominator.toNat < 2 ^ 252 →
    Series.Evaluates numerator.toNat denominator.toNat
        ⟨0, 1, factor.toNat * denominator.toNat⟩ (.ok output) →
    factor.toNat * denominator.toNat ≤ output ∧
    (0 < denominator.toNat → denominator.toNat ≤ 2 ^ 128 → 2 ^ 128 ≤ factor.toNat →
      exec (.taylor factor numerator denominator) s = .next (s.reply ⟨0x01, 0, 0, 0⟩))

/-- A reset drops every command not yet answered, and for every frame issued after it the step
answers it with the response it has right after State.reset. That responses already returned stay is
the model's choice (log entry 6). (derived from 70_reset_and_hazards.md R230;
70_reset_and_hazards.md R231; 10_state.md R31) -/
def Obligations.ResetAbandonsUnansweredCommands : Prop :=
  ∀ (s : State) (f : CommandFrame), s.applyReset.commands = [] ∧
    s.applyReset.responses = s.responses ∧
    ∃ r : ResponseFrame,
      step (State.reset.issue f) = .next ⟨[], [r]⟩ ∧
      step (s.applyReset.issue f) = .next ⟨[], s.responses ++ [r]⟩

/-- Whatever a host program does and however it ends, it leaves nothing at the interface of a block
that was idle before it, and its outcome is never that the block gave no answer. (derived from
70_reset_and_hazards.md R239; 60_exceptions.md R214; 20_memory.md R47; 95_test_vectors.md section 4)
-/
def Obligations.HostProgramLeavesNothingBehind : Prop :=
  ∀ (p : List HostCommand) (s : State), s.Idle →
    (runHostProgram p [] s).2.Idle ∧ (runHostProgram p [] s).1 ≠ .noAnswer

/-- Each slot of a host command, and its len, is a number or the R0, R1 or rlen of an earlier
command (as len, an R0 or R1 of at most 255). The empty program finishes with the responses read so
far. A command answered with status 0 is followed by the rest of the program, which may name its
response; one answered with another status stops the program with that status. A program p followed
by q: if p finishes, q is started with the responses of p; if p stops, p followed by q stops the
same way and no command of q is issued. The form of the sources and that a finished program has all
its responses as its outcome are the model's choice (log entry 13). (derived from 30_encoding.md
R75; 30_encoding.md R77; 70_reset_and_hazards.md R239) -/
def Obligations.HostStopsAtFirstError : Prop :=
  (∀ (done : List Response) (v : Slot) (n : Byte),
    (SlotSource.value v).fetch done = some v ∧ (LenSource.value n).fetch done = some n ∧
    ∀ (k : Nat) (h : k < done.length),
      (SlotSource.r0 k).fetch done = some done[k].r0 ∧
      (SlotSource.r1 k).fetch done = some done[k].r1 ∧
      (SlotSource.rlen k).fetch done = some (done[k].rlen.setWidth 384) ∧
      (LenSource.rlen k).fetch done = some done[k].rlen ∧
      (done[k].r0.toNat ≤ 255 →
        (LenSource.r0 k).fetch done = some (BitVec.ofNat 8 done[k].r0.toNat)) ∧
      (done[k].r1.toNat ≤ 255 →
        (LenSource.r1 k).fetch done = some (BitVec.ofNat 8 done[k].r1.toNat))) ∧
  (∀ (done : List Response) (s : State), runHostProgram [] done s = (.finished done, s)) ∧
  (∀ (c : HostCommand) (q : List HostCommand) (done : List Response) (s t : State)
      (f : CommandFrame) (r : Response),
    c.frame done = some f → transact f s = some (r, t) →
    (r.status = 0x00 → runHostProgram (c :: q) done s = runHostProgram q (done ++ [r]) t) ∧
    (r.status ≠ 0x00 → runHostProgram (c :: q) done s = (.stopped r.status, t))) ∧
  (∀ (p q : List HostCommand) (done results : List Response) (s : State),
    (runHostProgram p done s).1 = .finished results →
    runHostProgram (p ++ q) done s = runHostProgram q results (runHostProgram p done s).2) ∧
  (∀ (p q : List HostCommand) (done : List Response) (s : State) (status : Byte),
    (runHostProgram p done s).1 = .stopped status →
    runHostProgram (p ++ q) done s = runHostProgram p done s)

/-- When every source of a host command has a value, its frame is the frame of these fields. A
U384_TO_BE whose len names an R0 above 48, however large, is answered ValueError on an idle block:
that a number above 255 is sent as 255 is the model's choice (log entry 16). On an idle block, the
response that the host reads is the one that a step gives to its frame, and the block is idle again.
That the host issues one command at a time on an idle block is the model's choice (log entry 13).
(derived from 30_encoding.md R60; 30_encoding.md R75; 70_reset_and_hazards.md R239; 20_memory.md
R47; 45_u384.md R173; 60_exceptions.md R208) -/
def Obligations.HostIssuesItsFrameAndReadsTheAnswer : Prop :=
  (∀ (c : HostCommand) (done : List Response) (len : Byte) (a b d : Slot),
    c.len.fetch done = some len → c.a.fetch done = some a → c.b.fetch done = some b →
    c.c.fetch done = some d → c.frame done = some (CommandFrame.ofFields c.op len a b d)) ∧
  (∀ (f : CommandFrame) (s : State), s.Idle → ∃ r : ResponseFrame,
    step ⟨[f], []⟩ = .next ⟨[], [r]⟩ ∧ transact f s = some (Response.unpack r, s)) ∧
  (∀ (c : HostCommand) (done : List Response) (f : CommandFrame) (s : State) (k : Nat)
      (h : k < done.length),
    s.Idle → c.op = 0x63 → c.len = .r0 k → 48 < done[k].r0.toNat → c.frame done = some f →
    transact f s = some (⟨0x03, 0, 0, 0⟩, s))
end

