-- ==== Sys2Proof/Laws/Bytes.lean ====
section
/-! SUPPORT. Byte sequences as numbers: lengths, bounds, the two orders, and the slot image (spec
00_scope.md R9, 20_memory.md R40). -/

namespace Sys2Proof.Laws

open Sys2Proof.Machine

set_option exponentiation.threshold 2000

@[simp] theorem beBytes_length (v n : Nat) : (beBytes v n).length = n := by
  induction n with
  | zero => rfl
  | succ n ih => simp [beBytes, ih]

@[simp] theorem leBytes_length (v n : Nat) : (leBytes v n).length = n := by
  induction n generalizing v with
  | zero => rfl
  | succ n ih => simp [leBytes, ih]

@[simp] theorem bytesOf_length (x : Slot) (n : Nat) : (bytesOf x n).length = n := by
  simp [bytesOf]

theorem le_lt (s : List Byte) : le s < 256 ^ s.length := by
  induction s with
  | nil => simp [le]
  | cons b s ih =>
    have := b.isLt
    simp only [le, List.length_cons, Nat.pow_succ]
    omega

theorem be_lt (s : List Byte) : be s < 256 ^ s.length := by
  induction s with
  | nil => simp [be]
  | cons b s ih =>
    have hb : b.toNat + 1 ≤ 256 := b.isLt
    have := Nat.mul_le_mul_right (256 ^ s.length) hb
    simp only [be, List.length_cons, Nat.pow_succ]
    linarith

theorem le_append (s t : List Byte) : le (s ++ t) = le s + 256 ^ s.length * le t := by
  induction s with
  | nil => simp [le]
  | cons b s ih =>
    simp only [List.cons_append, le, ih, List.length_cons, Nat.pow_succ]
    ring

theorem be_append (s t : List Byte) : be (s ++ t) = be s * 256 ^ t.length + be t := by
  induction s with
  | nil => simp [be]
  | cons b s ih =>
    simp only [List.cons_append, be, ih, List.length_append, Nat.pow_add]
    ring

/-- The two orders are each other's reversal. -/
theorem le_reverse (s : List Byte) : le s.reverse = be s := by
  induction s with
  | nil => rfl
  | cons b s ih =>
    simp only [List.reverse_cons, le_append, ih, List.length_reverse, le, be]
    ring

theorem be_reverse (s : List Byte) : be s.reverse = le s := by
  rw [← le_reverse, List.reverse_reverse]

/-- Sequences of one length with one little-endian value are the same. -/
theorem le_inj {s t : List Byte} (hl : s.length = t.length) (h : le s = le t) : s = t := by
  induction s generalizing t with
  | nil => exact (List.eq_nil_of_length_eq_zero hl.symm).symm
  | cons b s ih =>
    cases t with
    | nil => simp at hl
    | cons c t =>
      have hb := b.isLt
      have hc := c.isLt
      simp only [le] at h
      have hbc : b.toNat = c.toNat := by omega
      have hst : le s = le t := by omega
      rw [BitVec.eq_of_toNat_eq hbc, ih (by simpa using hl) hst]

theorem be_inj {s t : List Byte} (hl : s.length = t.length) (h : be s = be t) : s = t := by
  rw [← le_reverse, ← le_reverse] at h
  exact List.reverse_injective (le_inj (by simpa using hl) h)

theorem le_leBytes (v n : Nat) : le (leBytes v n) = v % 256 ^ n := by
  induction n generalizing v with
  | zero => simp [leBytes, le, Nat.mod_one]
  | succ n ih =>
    rw [leBytes, le, ih, BitVec.toNat_ofNat, Nat.pow_succ 256 n, Nat.mul_comm (256 ^ n) 256,
      Nat.mod_mul, show (2 : Nat) ^ 8 = 256 from rfl]

theorem be_beBytes (v n : Nat) : be (beBytes v n) = v % 256 ^ n := by
  induction n with
  | zero => simp [beBytes, be, Nat.mod_one]
  | succ n ih =>
    rw [beBytes, be, ih, beBytes_length, BitVec.toNat_ofNat, Nat.pow_succ 256 n, Nat.mod_mul,
      show (2 : Nat) ^ 8 = 256 from rfl, Nat.mul_comm, Nat.add_comm]

/-- `be_bytes(be(s), n)` is `s` (R9). -/
theorem beBytes_be (s : List Byte) : beBytes (be s) s.length = s := by
  apply be_inj (by simp)
  rw [be_beBytes, Nat.mod_eq_of_lt (be_lt s)]

/-- `le_bytes(le(s), n)` is `s` (R9). -/
theorem leBytes_le (s : List Byte) : leBytes (le s) s.length = s := by
  apply le_inj (by simp)
  rw [le_leBytes, Nat.mod_eq_of_lt (le_lt s)]

/-- Encoding in one order is encoding in the other, reversed. -/
theorem beBytes_eq_reverse (v n : Nat) : beBytes v n = (leBytes v n).reverse := by
  apply be_inj (by simp)
  rw [be_beBytes, be_reverse, le_leBytes]

theorem pow256_le_slot {n : Nat} (h : n ≤ 48) : 256 ^ n ≤ 2 ^ 384 := by
  calc 256 ^ n ≤ 256 ^ 48 := Nat.pow_le_pow_right (by decide) h
    _ = 2 ^ 384 := by rw [show (256 : Nat) = 2 ^ 8 by norm_num, ← Nat.pow_mul]

theorem slotImage_toNat {s : List Byte} (h : s.length ≤ 48) : (slotImage s).toNat = le s := by
  rw [slotImage, BitVec.toNat_ofNat]
  exact Nat.mod_eq_of_lt (lt_of_lt_of_le (le_lt s) (pow256_le_slot h))

theorem laneOf_toNat (x : Slot) (k : Nat) : (laneOf x k).toNat = x.toNat / 256 ^ k % 256 := by
  rw [laneOf, BitVec.extractLsb'_toNat, Nat.shiftRight_eq_div_pow, Nat.pow_mul]

theorem le_map_lanes (v n : Nat) (lane : Nat → Byte)
    (h : ∀ k < n, (lane k).toNat = v / 256 ^ k % 256) :
    le ((List.range n).map lane) = v % 256 ^ n := by
  induction n with
  | zero => simp [le, Nat.mod_one]
  | succ n ih =>
    rw [List.range_succ, List.map_append, le_append, ih fun k hk => h k (by omega)]
    simp only [List.map_cons, List.map_nil, le, h n (by omega), List.length_map, List.length_range]
    rw [Nat.pow_succ, Nat.mod_mul]
    ring

/-- The number in the low `n` lanes of a slot (R67). -/
theorem le_bytesOf (x : Slot) (n : Nat) : le (bytesOf x n) = x.toNat % 256 ^ n :=
  le_map_lanes _ _ _ fun k _ => laneOf_toNat x k

/-- Reading the lanes of a slot image gives the sequence back. -/
theorem bytesOf_slotImage {s : List Byte} (h : s.length ≤ 48) : bytesOf (slotImage s) s.length = s := by
  apply le_inj (by simp)
  rw [le_bytesOf, slotImage_toNat h, Nat.mod_eq_of_lt (le_lt s)]

/-- The slot image of the low `n` lanes keeps them and clears the rest (20_memory.md R40). -/
theorem slotImage_bytesOf_toNat (x : Slot) {n : Nat} (h : n ≤ 48) :
    (slotImage (bytesOf x n)).toNat = x.toNat % 256 ^ n := by
  rw [slotImage_toNat (by simpa using h), le_bytesOf]

/-- A number that fits a slot is not changed by the narrowing. -/
theorem zext384_toNat {v : Nat} (h : v < 2 ^ 384) : (zext384 v).toNat = v := by
  rw [zext384, BitVec.toNat_ofNat, Nat.mod_eq_of_lt h]

/-- A field read back from the slot that carries a number. -/
theorem uintOf_zext384 {v : Nat} (h : v < 2 ^ 256) : (uintOf (zext384 v)).toNat = v := by
  rw [uintOf, BitVec.extractLsb'_toNat, zext384_toNat (h.trans (by decide)), Nat.shiftRight_zero,
    Nat.mod_eq_of_lt h]

/-- Widening a field to a slot and reading it back. -/
theorem uintOf_wide (x : BitVec 256) : uintOf (wide x) = x := by
  ext i hi
  simp only [uintOf, wide, BitVec.getElem_extractLsb', BitVec.getLsbD_setWidth, Nat.zero_add]
  rw [BitVec.getLsbD_eq_getElem hi, decide_eq_true (by omega), Bool.true_and]

end Sys2Proof.Laws
end

