-- ==== Sys2Proof/Laws/Config.lean ====
section
/-! SUPPORT. The numbers of the parameter table (spec 00_scope.md R6), and the domain check read as
an inequality. -/

namespace Sys2Proof.Laws

open Sys2Proof.Machine

theorem B_eq : Config.B = 2 ^ 252 := rfl
theorem SAT_eq : Config.SAT = 2 ^ 128 := rfl
theorem BOUND128_eq : Config.BOUND128 = 2 ^ 128 := rfl
theorem BOUND192_eq : Config.BOUND192 = 2 ^ 192 := rfl

/-- The domain check of an operand field (60_exceptions.md R209). -/
theorem outOfDomain_iff (v : UintField) : outOfDomain v = true ↔ 2 ^ 252 ≤ v.toNat := by
  rw [outOfDomain, decide_eq_true_iff]

theorem outOfDomain_false_iff (v : UintField) : outOfDomain v = false ↔ v.toNat < 2 ^ 252 := by
  rw [outOfDomain, decide_eq_false_iff_not, Nat.not_le]

end Sys2Proof.Laws
end

