-- ==== Sys2Proof/Laws/Frames.lean ====
section
/-! SUPPORT. Frames and their fields determine each other (spec 30_encoding.md R60, R61). -/

namespace Sys2Proof.Laws

open Sys2Proof.Machine

set_option exponentiation.threshold 2000

/-- Reading a field off a concatenation, bit by bit: the field starts where the lower part ends. -/
theorem extractLsb'_append_high {m n k : Nat} (x : BitVec m) (y : BitVec n) (j : Nat) :
    (x ++ y).extractLsb' (n + j) k = x.extractLsb' j k := by
  ext i hi
  simp only [BitVec.getElem_extractLsb', BitVec.getLsbD_append]
  rw [if_neg (by omega)]
  congr 1
  omega

/-- A field that lies within the lower part of a concatenation. -/
theorem extractLsb'_append_low {m n k : Nat} (x : BitVec m) (y : BitVec n) (j : Nat)
    (h : j + k ≤ n) : (x ++ y).extractLsb' j k = y.extractLsb' j k := by
  ext i hi
  simp only [BitVec.getElem_extractLsb', BitVec.getLsbD_append]
  rw [if_pos (by omega)]

theorem extractLsb'_cast {m n k : Nat} (h : m = n) (x : BitVec m) (j : Nat) :
    (BitVec.cast h x).extractLsb' j k = x.extractLsb' j k := by
  subst h
  rfl

/-- A whole vector, read as a field of itself. -/
theorem extractLsb'_self {n : Nat} (x : BitVec n) : x.extractLsb' 0 n = x := by
  ext i hi
  simp

@[simp] theorem unpack_pack (r : Response) : Response.unpack r.pack = r := by
  obtain ⟨status, rlen, r0, r1⟩ := r
  simp only [Response.pack, Response.unpack, extractLsb'_cast, Response.mk.injEq]
  refine ⟨?_, ?_, ?_, ?_⟩
  · rw [extractLsb'_append_low _ _ _ (by decide), extractLsb'_self]
  · rw [extractLsb'_append_high _ _ 0, extractLsb'_append_low _ _ _ (by decide), extractLsb'_self]
  · rw [extractLsb'_append_high _ _ 8, extractLsb'_append_high _ _ 0,
      extractLsb'_append_low _ _ _ (by decide), extractLsb'_self]
  · rw [extractLsb'_append_high _ _ 392, extractLsb'_append_high _ _ 384,
      extractLsb'_append_high _ _ 0, extractLsb'_self]

theorem pack_inj {r r' : Response} (h : r.pack = r'.pack) : r = r' := by
  rw [← unpack_pack r, h, unpack_pack]

/-- Two replies to one state are the same only if the responses are. -/
theorem reply_inj {s : State} {r r' : Response} (h : s.reply r = s.reply r') : r = r' := by
  have := congrArg State.responses h
  simp only [State.reply, List.append_cancel_left_eq, List.cons.injEq, and_true] at this
  exact pack_inj this

@[simp] theorem reply_eq_iff (s : State) (r r' : Response) : s.reply r = s.reply r' ↔ r = r' :=
  ⟨reply_inj, fun h => h ▸ rfl⟩

theorem ofFields_op (op len : Byte) (a b c : Slot) :
    (CommandFrame.ofFields op len a b c).op = op := by
  simp only [CommandFrame.ofFields, CommandFrame.op, extractLsb'_cast]
  rw [extractLsb'_append_low _ _ _ (by decide), extractLsb'_self]

theorem ofFields_len (op len : Byte) (a b c : Slot) :
    (CommandFrame.ofFields op len a b c).len = len := by
  simp only [CommandFrame.ofFields, CommandFrame.len, extractLsb'_cast]
  rw [extractLsb'_append_high _ _ 0, extractLsb'_append_low _ _ _ (by decide), extractLsb'_self]

theorem ofFields_slotA (op len : Byte) (a b c : Slot) :
    (CommandFrame.ofFields op len a b c).slotA = a := by
  simp only [CommandFrame.ofFields, CommandFrame.slotA, extractLsb'_cast]
  rw [extractLsb'_append_high _ _ 8, extractLsb'_append_high _ _ 0,
    extractLsb'_append_low _ _ _ (by decide), extractLsb'_self]

theorem ofFields_slotB (op len : Byte) (a b c : Slot) :
    (CommandFrame.ofFields op len a b c).slotB = b := by
  simp only [CommandFrame.ofFields, CommandFrame.slotB, extractLsb'_cast]
  rw [extractLsb'_append_high _ _ 392, extractLsb'_append_high _ _ 384,
    extractLsb'_append_high _ _ 0, extractLsb'_append_low _ _ _ (by decide), extractLsb'_self]

theorem ofFields_slotC (op len : Byte) (a b c : Slot) :
    (CommandFrame.ofFields op len a b c).slotC = c := by
  simp only [CommandFrame.ofFields, CommandFrame.slotC, extractLsb'_cast]
  rw [extractLsb'_append_high _ _ 776, extractLsb'_append_high _ _ 768,
    extractLsb'_append_high _ _ 384, extractLsb'_append_high _ _ 0, extractLsb'_self]

/-- Two adjoining fields make one. -/
theorem extractLsb'_glue {n : Nat} (x : BitVec n) (p a b : Nat) :
    x.extractLsb' (p + a) b ++ x.extractLsb' p a = x.extractLsb' p (b + a) := by
  ext i hi
  simp only [BitVec.getElem_append, BitVec.getElem_extractLsb']
  split
  · rfl
  · congr 1
    omega

/-- A frame is the frame of its fields: no bit of it lies outside them (R60). -/
theorem ofFields_fields (f : CommandFrame) :
    CommandFrame.ofFields f.op f.len f.slotA f.slotB f.slotC = f := by
  simp only [CommandFrame.ofFields, CommandFrame.op, CommandFrame.len, CommandFrame.slotA,
    CommandFrame.slotB, CommandFrame.slotC]
  rw [extractLsb'_glue f 400 384 384, extractLsb'_glue f 16 384 768, extractLsb'_glue f 8 8 1152,
    extractLsb'_glue f 0 8 1160]
  exact extractLsb'_self f

/-- A response frame is the frame of its fields (R61). -/
theorem pack_unpack (f : ResponseFrame) : (Response.unpack f).pack = f := by
  simp only [Response.pack, Response.unpack]
  rw [extractLsb'_glue f 16 384 384, extractLsb'_glue f 8 8 768, extractLsb'_glue f 0 8 776]
  exact extractLsb'_self f

/-! ### A field of a slot is a field of the frame (R64 to R67) -/

/-- A field of a field. -/
theorem extractLsb'_extractLsb' {n : Nat} (x : BitVec n) (p q a b : Nat) (h : q + b ≤ a) :
    (x.extractLsb' p a).extractLsb' q b = x.extractLsb' (p + q) b := by
  ext i hi
  simp only [BitVec.getElem_extractLsb', BitVec.getLsbD_extractLsb']
  rw [decide_eq_true (by omega), Bool.true_and]
  congr 1
  omega

theorem uintOf_slotA (f : CommandFrame) : uintOf f.slotA = f.extractLsb' 16 256 :=
  extractLsb'_extractLsb' _ _ _ _ _ (by decide)

theorem uintOf_slotB (f : CommandFrame) : uintOf f.slotB = f.extractLsb' 400 256 :=
  extractLsb'_extractLsb' _ _ _ _ _ (by decide)

theorem uintOf_slotC (f : CommandFrame) : uintOf f.slotC = f.extractLsb' 784 256 :=
  extractLsb'_extractLsb' _ _ _ _ _ (by decide)

theorem u256Of_slotA (f : CommandFrame) : u256Of f.slotA = f.extractLsb' 16 256 :=
  extractLsb'_extractLsb' _ _ _ _ _ (by decide)

theorem u256Of_slotB (f : CommandFrame) : u256Of f.slotB = f.extractLsb' 400 256 :=
  extractLsb'_extractLsb' _ _ _ _ _ (by decide)

theorem bytesOf_slotA (f : CommandFrame) {n : Nat} (h : n ≤ 48) :
    bytesOf f.slotA n = (List.range n).map fun k => f.extractLsb' (16 + 8 * k) 8 := by
  unfold bytesOf
  refine List.map_congr_left fun k hk => ?_
  have := List.mem_range.1 hk
  exact extractLsb'_extractLsb' _ _ _ _ _ (by omega)

/-- The operand of format S, lane by lane of the frame (R71). -/
theorem sequence_eq (f : CommandFrame) :
    f.sequence = if (f.extractLsb' 8 8).toNat ≤ 48 then
      (List.range (f.extractLsb' 8 8).toNat).map fun k => f.extractLsb' (16 + 8 * k) 8 else [] := by
  unfold CommandFrame.sequence
  by_cases h : (f.extractLsb' 8 8).toNat ≤ 48
  · rw [if_pos h]
    exact (if_pos h).trans (bytesOf_slotA f h)
  · rw [if_neg h]
    exact if_neg h

end Sys2Proof.Laws
end

