-- ==== Sys2Proof/Laws/HostProgram.lean ====
section
/-! SUPPORT. What the host's own functions can do (spec 30_encoding.md R75, R77; log entries 13, 16). -/

namespace Sys2Proof.Laws

open Sys2Proof.Machine

/-- Everything the `len` field of a length can be. -/
@[simp] theorem lenField_toNat (n : Nat) : (lenField n).toNat = min n 255 := by
  rw [lenField, BitVec.toNat_ofNat]
  exact Nat.mod_eq_of_lt (by omega)

/-- A length that fits the field is sent as it is. -/
theorem lenField_toNat_of_le {n : Nat} (h : n ≤ 255) : (lenField n).toNat = n := by
  rw [lenField_toNat, Nat.min_eq_left h]

/-- A length is too long for a sequence exactly when its field is (60_exceptions.md R208). -/
theorem lenField_long_iff {limit : Nat} (h : limit < 255) (n : Nat) :
    limit < (lenField n).toNat ↔ limit < n := by
  rw [lenField_toNat]
  omega

/-- Everything the building of a frame can do: it needs a value of every source, and puts each in its
field. -/
theorem frame_some {c : HostCommand} {done : List Response} {f : CommandFrame}
    (h : c.frame done = some f) :
    ∃ len a b d, c.len.fetch done = some len ∧ c.a.fetch done = some a ∧
      c.b.fetch done = some b ∧ c.c.fetch done = some d ∧
      f = CommandFrame.ofFields c.op len a b d := by
  unfold HostCommand.frame at h
  split at h
  · cases h
    exact ⟨_, _, _, _, by assumption, by assumption, by assumption, by assumption, rfl⟩
  · cases h

end Sys2Proof.Laws
end

