-- ==== Sys2Proof/Laws/Numbers.lean ====
section
/-! SUPPORT. What the numeric functions of the meanings compute (spec 40_divmod.md R100, R103;
42_uint_helpers.md R120, R121, R125). -/

namespace Sys2Proof.Laws

open Sys2Proof.Machine

/-- Everything a divmod that returns can return (R100, R103). -/
theorem divmod_ok {m value div q r : Nat} (h : divmod m value div = .ok (q, r)) :
    0 < div ∧ div ≤ m ∧ value < Config.B ∧ q = value / div ∧ r = value % div ∧ q < m := by
  unfold divmod at h
  split at h
  · cases h
  split at h
  · cases h
  split at h
  · cases h
  · cases h
    omega

/-- Everything a divmod that raises can raise (R100). -/
theorem divmod_error {m value div : Nat} {k : ErrorKind} (h : divmod m value div = .error k) :
    (k = .divisionError ∧ (div = 0 ∨ m < div ∨ m ≤ value / div)) ∨
    (k = .valueError ∧ 0 < div ∧ div ≤ m ∧ Config.B ≤ value) := by
  unfold divmod at h
  split at h
  · cases h
    exact .inl ⟨rfl, by tauto⟩
  split at h
  · cases h
    exact .inr ⟨rfl, by omega⟩
  split at h
  · cases h
    exact .inl ⟨rfl, by tauto⟩
  · cases h

/-- A divmod returns when its three checks pass (R100). -/
theorem divmod_eq {m value div : Nat} (hd : 0 < div) (hw : div ≤ m) (hv : value < Config.B)
    (hq : value / div < m) : divmod m value div = .ok (value / div, value % div) := by
  unfold divmod
  rw [if_neg (by omega), if_neg (by omega), if_neg (by omega)]

/-- The rounded value is the least multiple of 32 that is not below (R120). -/
theorem ceil32_spec (v : Nat) : ceil32 v % 32 = 0 ∧ v ≤ ceil32 v ∧ ceil32 v < v + 32 := by
  unfold ceil32
  split <;> omega

theorem bitLength_le (w v : Nat) : bitLength w v ≤ w := by
  induction w with
  | zero => simp [bitLength]
  | succ w ih =>
    unfold bitLength
    split <;> omega

/-- The defining property of the bit length (R121, R125). -/
theorem bitLength_spec {w v : Nat} (h : v < 2 ^ w) :
    v < 2 ^ bitLength w v ∧ (v ≠ 0 → 1 ≤ bitLength w v ∧ 2 ^ (bitLength w v - 1) ≤ v) := by
  induction w with
  | zero => simp_all [bitLength]
  | succ w ih =>
    unfold bitLength
    split
    · next hb => exact ⟨h, fun _ => ⟨by omega, Nat.ge_two_pow_of_testBit hb⟩⟩
    · next hb =>
      refine ih (Nat.lt_of_not_le fun hle => hb ?_)
      rw [Nat.testBit_eq_decide_div_mod_eq, decide_eq_true_iff]
      have hlow : 1 ≤ v / 2 ^ w := (Nat.one_le_div_iff (by positivity)).2 hle
      have hhigh : v / 2 ^ w < 2 := Nat.div_lt_of_lt_mul (by rwa [Nat.pow_succ] at h)
      omega

/-- The bit length is below a bound exactly when the value fits that many bits (R121). -/
theorem bitLength_le_iff {w v n : Nat} (h : v < 2 ^ w) : bitLength w v ≤ n ↔ v < 2 ^ n := by
  obtain ⟨hlt, hge⟩ := bitLength_spec h
  constructor
  · exact fun hn => lt_of_lt_of_le hlt (Nat.pow_le_pow_right (by decide) hn)
  · intro hv
    by_contra hn
    rcases Nat.eq_zero_or_pos v with rfl | hpos
    · have := bitLength_le w 0
      have h0 : bitLength w 0 = 0 := by
        clear * -
        induction w with
        | zero => rfl
        | succ w ih => simp [bitLength, ih]
      omega
    · obtain ⟨h1, h2⟩ := hge (by omega)
      have : 2 ^ n ≤ 2 ^ (bitLength w v - 1) := Nat.pow_le_pow_right (by decide) (by omega)
      omega

end Sys2Proof.Laws
end

