-- ==== Sys2Proof/Laws/Opcode.lean ====
section
/-! SUPPORT. The opcode map read both ways (spec 30_encoding.md R69, R70). -/

namespace Sys2Proof.Laws

@[simp] theorem ofByte_byte (o : Opcode) : Opcode.ofByte o.byte = some o := by
  cases o <;> rfl

/-- The byte that selects an operation is that operation's byte. -/
theorem byte_of_ofByte {b : Byte} {o : Opcode} (h : Opcode.ofByte b = some o) : b = o.byte := by
  unfold Opcode.ofByte at h
  apply BitVec.eq_of_toNat_eq
  split at h <;> first | (cases h; assumption) | cases h

/-- Reading an operation from a frame gives a command of that operation. -/
@[simp] theorem read_opcode (o : Opcode) (f : CommandFrame) : (o.read f).opcode = o := by
  cases o <;> rfl

/-- Everything a successful decode can be. -/
theorem decode_ok {f : CommandFrame} {i : Instr} (h : decode f = .ok i) :
    ∃ o : Opcode, f.op = o.byte ∧ i = o.read f := by
  unfold decode at h
  split at h
  · next o ho =>
    cases h
    exact ⟨o, byte_of_ofByte ho, rfl⟩
  · cases h

/-- A frame whose `op` is that of an operation decodes to that operation. -/
theorem decode_of_op {f : CommandFrame} {o : Opcode} (h : f.op = o.byte) :
    decode f = .ok (o.read f) := by
  simp [decode, h]

end Sys2Proof.Laws
end

