-- ==== Sys2Proof/Laws/PerInstr.lean ====
section
/-! SUPPORT. Statements made per operation: the `op` field of an encoded command is its operation's
byte (spec 30_encoding.md R60, R70). -/

namespace Sys2Proof.Laws

/-- The `op` field of the frame of a command selects its operation. -/
def OpcodeField.Statement (i : Instr) : Prop :=
  Opcode.ofByte (encode i).op = some i.opcode

/-- The shape every operation shares. -/
theorem opcodeField_of (i : Instr) : OpcodeField.Statement i := by
  unfold OpcodeField.Statement encode
  rw [ofFields_op, ofByte_byte]

theorem OpcodeField.divmod128 (a b : UintField) : OpcodeField.Statement (.divmod128 a b) :=
  opcodeField_of _

theorem OpcodeField.divmod192 (a b : UintField) : OpcodeField.Statement (.divmod192 a b) :=
  opcodeField_of _

theorem OpcodeField.umin (a b : UintField) : OpcodeField.Statement (.umin a b) :=
  opcodeField_of _

theorem OpcodeField.umax (a b : UintField) : OpcodeField.Statement (.umax a b) :=
  opcodeField_of _

theorem OpcodeField.ceil32 (a : UintField) : OpcodeField.Statement (.ceil32 a) :=
  opcodeField_of _

theorem OpcodeField.bitlen (a : UintField) : OpcodeField.Statement (.bitlen a) :=
  opcodeField_of _

theorem OpcodeField.uintFromBe (a : Byte) (b : List Byte) : OpcodeField.Statement (.uintFromBe a b) :=
  opcodeField_of _

theorem OpcodeField.u64FromBe (a : Byte) (b : List Byte) : OpcodeField.Statement (.u64FromBe a b) :=
  opcodeField_of _

theorem OpcodeField.u256FromBe32 (a : List Byte) : OpcodeField.Statement (.u256FromBe32 a) :=
  opcodeField_of _

theorem OpcodeField.u256ToBe32 (a : U256) : OpcodeField.Statement (.u256ToBe32 a) :=
  opcodeField_of _

theorem OpcodeField.u256FromLe32 (a : List Byte) : OpcodeField.Statement (.u256FromLe32 a) :=
  opcodeField_of _

theorem OpcodeField.u256ToLe32 (a : U256) : OpcodeField.Statement (.u256ToLe32 a) :=
  opcodeField_of _

theorem OpcodeField.u256FromBe20 (a : List Byte) : OpcodeField.Statement (.u256FromBe20 a) :=
  opcodeField_of _

theorem OpcodeField.u256ToBe20 (a : U256) : OpcodeField.Statement (.u256ToBe20 a) :=
  opcodeField_of _

theorem OpcodeField.u256FromBe (a : Byte) (b : List Byte) : OpcodeField.Statement (.u256FromBe a b) :=
  opcodeField_of _

theorem OpcodeField.u256Add (a b : U256) : OpcodeField.Statement (.u256Add a b) :=
  opcodeField_of _

theorem OpcodeField.u256Addc (a b : U256) : OpcodeField.Statement (.u256Addc a b) :=
  opcodeField_of _

theorem OpcodeField.u256Sub (a b : U256) : OpcodeField.Statement (.u256Sub a b) :=
  opcodeField_of _

theorem OpcodeField.u256Mul (a b : U256) : OpcodeField.Statement (.u256Mul a b) :=
  opcodeField_of _

theorem OpcodeField.u256Le (a b : U256) : OpcodeField.Statement (.u256Le a b) :=
  opcodeField_of _

theorem OpcodeField.u256Min (a b : U256) : OpcodeField.Statement (.u256Min a b) :=
  opcodeField_of _

theorem OpcodeField.u256Max (a b : U256) : OpcodeField.Statement (.u256Max a b) :=
  opcodeField_of _

theorem OpcodeField.u256Eq (a b : U256) : OpcodeField.Statement (.u256Eq a b) :=
  opcodeField_of _

theorem OpcodeField.u256FromUint (a : UintField) : OpcodeField.Statement (.u256FromUint a) :=
  opcodeField_of _

theorem OpcodeField.u256ToUint (a : U256) : OpcodeField.Statement (.u256ToUint a) :=
  opcodeField_of _

theorem OpcodeField.u384Iszero (a : U384) : OpcodeField.Statement (.u384Iszero a) :=
  opcodeField_of _

theorem OpcodeField.u384Isone (a : U384) : OpcodeField.Statement (.u384Isone a) :=
  opcodeField_of _

theorem OpcodeField.u384FromBe (a : Byte) (b : List Byte) : OpcodeField.Statement (.u384FromBe a b) :=
  opcodeField_of _

theorem OpcodeField.u384ToBe (a : U384) (b : Byte) : OpcodeField.Statement (.u384ToBe a b) :=
  opcodeField_of _

theorem OpcodeField.u384Eq (a b : U384) : OpcodeField.Statement (.u384Eq a b) :=
  opcodeField_of _

theorem OpcodeField.taylor (a b c : UintField) : OpcodeField.Statement (.taylor a b c) :=
  opcodeField_of _

end Sys2Proof.Laws
end

