-- ==== Sys2Proof/Laws/Series.lean ====
section
/-! SUPPORT. The loop of the series evaluator: what a pass can do, and that the model's fuel is never
spent (spec 46_taylor.md R191, R192, R194; log entry 5). -/

namespace Sys2Proof.Laws

open Sys2Proof.Machine

/-- Everything a pass that goes on can do (R191, R194). -/
theorem pass_going {n d : Nat} {σ σ' : Series} (h : σ.pass n d = .going σ') :
    σ.acc ≠ 0 ∧ σ.output + σ.acc < Config.B ∧ σ.acc * n < Config.SAT ∧
      0 < d * σ.i ∧ d * σ.i ≤ 2 ^ 128 ∧
      σ' = ⟨σ.output + σ.acc, σ.i + 1, σ.acc * n / (d * σ.i)⟩ := by
  unfold Series.pass at h
  split at h
  · cases h
  simp only at h
  split at h
  · cases h
  split at h
  · cases h
  split at h
  · cases h
  · next hq =>
    cases h
    obtain ⟨h1, h2, -, rfl, -, -⟩ := divmod_ok hq
    exact ⟨by assumption, by omega, by omega, h1, h2, rfl⟩

/-- Once the divisor exceeds the numerator, `acc` decreases at every pass, so fuel above `acc` is
enough (R192). -/
theorem series_run_answers_late {n d : Nat} (fuel : Nat) (σ : Series) (hi : n < d * σ.i)
    (hf : σ.acc < fuel) : Series.run n d fuel σ ≠ none := by
  induction fuel generalizing σ with
  | zero => omega
  | succ fuel ih =>
    unfold Series.run
    split
    · simp
    · simp
    · next σ' hp =>
      obtain ⟨hacc, -, -, hpos, -, rfl⟩ := pass_going hp
      refine ih _ (by simp only [Nat.mul_add]; omega) ?_
      have : σ.acc * n / (d * σ.i) < σ.acc :=
        Nat.div_lt_of_lt_mul (by
          rw [Nat.mul_comm (d * σ.i)]
          exact Nat.mul_lt_mul_of_pos_left hi (Nat.pos_of_ne_zero hacc))
      simp only
      omega

/-- The fuel of the model is never spent: the loop always ends (R192, 70_reset_and_hazards.md R237). -/
theorem series_run_answers_from {n d : Nat} (fuel : Nat) (σ : Series) (hacc : σ.acc < Config.B)
    (hf : n / d + 1 - σ.i + Config.B ≤ fuel) : Series.run n d fuel σ ≠ none := by
  induction fuel generalizing σ with
  | zero =>
    have : 0 < Config.B := by decide
    omega
  | succ fuel ih =>
    by_cases hK : n / d < σ.i ∧ 0 < d
    · refine series_run_answers_late _ σ ?_ (by omega)
      have := Nat.lt_mul_of_div_lt hK.1 hK.2
      rwa [Nat.mul_comm] at this
    · unfold Series.run
      split
      · simp
      · simp
      · next σ' hp =>
        obtain ⟨-, -, hsat, hpos, -, rfl⟩ := pass_going hp
        have hd : 0 < d := Nat.pos_of_mul_pos_right hpos
        refine ih _ ?_ (by simp only; omega)
        have hB : Config.SAT ≤ Config.B := by decide
        have := Nat.div_le_self (σ.acc * n) (d * σ.i)
        simp only
        omega

/-- The loop of a TAYLOR command ends with an answer, for any operands the loop is entered with. -/
theorem series_run_answers (f n d : Nat) (h : f * d < Config.B) :
    Series.run n d (Series.fuel n d) (Series.start f d) ≠ none :=
  series_run_answers_from _ _ h (by
    simp only [Series.fuel, Series.start]
    generalize n / d = k
    omega)

/-! ### The loop as a relation -/

/-- The relation leaves no choice: from one working state the loop ends in one way. -/
theorem evaluates_unique {n d : Nat} {σ : Series} {r r' : Except ErrorKind Nat}
    (h : Series.Evaluates n d σ r) (h' : Series.Evaluates n d σ r') : r = r' := by
  induction h with
  | ended o i => cases h' <;> first | rfl | contradiction
  | sumOverflows o i a h1 h2 => cases h' <;> first | rfl | contradiction | omega
  | saturates o i a h1 h2 h3 => cases h' <;> first | rfl | contradiction | omega
  | divisorFails o i a h1 h2 h3 h4 => cases h' <;> first | rfl | contradiction | omega
  | passes o i a r h1 h2 h3 h4 h5 ih =>
    cases h' <;> first | contradiction | omega | (apply ih; assumption)

/-- An answer of the loop on fuel is an answer of the relation. -/
theorem series_run_evaluates {n d : Nat} (fuel : Nat) (σ : Series) {r : Except ErrorKind Nat}
    (h : Series.run n d fuel σ = some r) : Series.Evaluates n d σ r := by
  induction fuel generalizing σ with
  | zero => cases h
  | succ fuel ih =>
    obtain ⟨o, i, a⟩ := σ
    have hB := B_eq
    have hS := SAT_eq
    unfold Series.run at h
    by_cases ha : a = 0
    · subst ha
      cases h
      exact .ended _ _
    by_cases hs : Config.B ≤ o + a
    · simp only [Series.pass, ha, if_false, if_pos hs, Option.some.injEq] at h
      exact h ▸ .sumOverflows _ _ _ ha hs
    by_cases hn : Config.SAT ≤ a * n
    · simp only [Series.pass, ha, if_false, if_neg hs, if_pos hn, Option.some.injEq] at h
      exact h ▸ .saturates _ _ _ ha (by omega) hn
    have hq : a * n / (d * i) < 2 ^ 128 := lt_of_le_of_lt (Nat.div_le_self _ _) (by omega)
    by_cases hd : d * i = 0 ∨ 2 ^ 128 < d * i
    · simp only [Series.pass, ha, if_false, if_neg hs, if_neg hn, divmod, if_pos hd,
        Option.some.injEq] at h
      exact h ▸ .divisorFails _ _ _ ha (by omega) (by omega) hd
    · rw [not_or] at hd
      have := divmod_eq (m := 2 ^ 128) (value := a * n) (div := d * i) (by omega) (by omega)
        (by omega) hq
      simp only [Series.pass, ha, if_false, if_neg hs, if_neg hn, this] at h
      exact .passes _ _ _ _ ha (by omega) (by omega) (by omega) (ih _ h)

end Sys2Proof.Laws
end

