-- ==== Sys2Proof/Laws/State.lean ====
section
/-! SUPPORT. What each update of `State` does to each field. -/

namespace Sys2Proof.Laws

open Sys2Proof.Machine

@[simp] theorem reset_commands : State.reset.commands = [] := rfl
@[simp] theorem reset_responses : State.reset.responses = [] := rfl

@[simp] theorem reply_commands (s : State) (r : Response) : (s.reply r).commands = s.commands := rfl
@[simp] theorem reply_responses (s : State) (r : Response) :
    (s.reply r).responses = s.responses ++ [r.pack] := rfl

@[simp] theorem issue_commands (s : State) (f : CommandFrame) :
    (s.issue f).commands = s.commands ++ [f] := rfl
@[simp] theorem issue_responses (s : State) (f : CommandFrame) :
    (s.issue f).responses = s.responses := rfl

@[simp] theorem applyReset_commands (s : State) : s.applyReset.commands = [] := rfl
@[simp] theorem applyReset_responses (s : State) : s.applyReset.responses = s.responses := rfl

/-- Everything a host's read can do. -/
theorem readResponse_some {s t : State} {r : Response} (h : s.readResponse = some (r, t)) :
    ∃ f, s.responses = f :: t.responses ∧ r = Response.unpack f ∧ t.commands = s.commands := by
  cases hr : s.responses with
  | nil => simp [State.readResponse, hr] at h
  | cons f rest =>
    simp only [State.readResponse, hr, Option.some.injEq, Prod.mk.injEq] at h
    obtain ⟨rfl, rfl⟩ := h
    exact ⟨f, rfl, rfl, rfl⟩

/-- Everything a successful end of a command does. -/
theorem complete_eq (s : State) (r0 r1 : Slot) (rlen : Byte) :
    complete s r0 r1 rlen = .next (s.reply ⟨0x00, rlen, r0, r1⟩) := rfl

/-- Everything taking an error does. -/
theorem raise_eq (k : ErrorKind) (s : State) : raise k s = .next (s.reply ⟨k.code, 0, 0, 0⟩) := rfl

end Sys2Proof.Laws
end

