-- ==== Sys2Proof/Laws/Step.lean ====
section
/-! SUPPORT. What a step and a run can do (spec 10_state.md R29, 20_memory.md R46, R50). -/

namespace Sys2Proof.Laws

open Sys2Proof.Machine

/-- With no command to answer a step changes nothing. -/
@[simp] theorem step_idle (rs : List ResponseFrame) : step ⟨[], rs⟩ = .next ⟨[], rs⟩ := rfl

/-- Everything a step on a waiting command can do. -/
theorem step_cons (f : CommandFrame) (cs : List CommandFrame) (rs : List ResponseFrame) :
    (∃ i, decode f = .ok i ∧ step ⟨f :: cs, rs⟩ = exec i ⟨cs, rs⟩) ∨
    (decode f = .error (.illegalCommand f.op) ∧
      step ⟨f :: cs, rs⟩ = raise .illegalCommand ⟨cs, rs⟩) := by
  cases ho : Opcode.ofByte f.op with
  | some o =>
    have hd : decode f = .ok (o.read f) := by simp [decode, ho]
    exact .inl ⟨_, hd, by simp [step, hd]⟩
  | none =>
    have hd : decode f = .error (.illegalCommand f.op) := by simp [decode, ho]
    exact .inr ⟨hd, by simp [step, hd]⟩

/-- A run whose first step answers next goes on from there. -/
theorem run_next {M : Host.Core} {s t : M.State} (k : Nat) (h : M.step s = .next t) :
    M.run (k + 1) s = M.run k t := by
  rw [Host.Core.run, h]

end Sys2Proof.Laws
end

