-- ==== Sys2Proof/Tests/Slice0.lean ====
section
/-! SUPPORT. Small tests. The expected values are those of spec/95_test_vectors.md (T-, F- and P-
names) or follow by hand from the frame layout of 30_encoding.md R60 and R61. The last part shows,
for each statement of Certificates/Slice0/Obligations.lean that has hypotheses, concrete operands
that meet them, each clause at a boundary of its range. -/

namespace Sys2Proof.Tests

open Sys2Proof.Machine

set_option exponentiation.threshold 2000
set_option Elab.async false

/-- A 256-bit operand. -/
abbrev u (n : Nat) : BitVec 256 := BitVec.ofNat 256 n

/-- A 384-bit operand or result. -/
abbrev x (n : Nat) : BitVec 384 := BitVec.ofNat 384 n

/-- A frame, as the number of R60. -/
abbrev cmd (n : Nat) : CommandFrame := BitVec.ofNat 1168 n

/-- `[1, 2, ..., n]` as bytes. -/
def counting (n : Nat) : List Byte := (List.range n).map fun k => BitVec.ofNat 8 (k + 1)

/-- The first response after an outcome. -/
def firstResponse (o : Host.Outcome State Fault Refusal) : Option ResponseFrame :=
  match o with
  | .next t => t.responses.head?
  | .fault _ => none
  | .refused _ => none

/-- The response to one command on the block after reset. -/
def answer (i : Instr) : Option Response :=
  (firstResponse (exec i State.reset)).map Response.unpack

/-- The response frame to one command frame on the block after reset. -/
def answerFrame (n : Nat) : Option ResponseFrame :=
  firstResponse (step (State.reset.issue (cmd n)))

/-! ### Well-formedness: each check refuses an ill-formed term -/

theorem test_ill_formed_uintFromBe :
    (Instr.uintFromBe 3 [1, 2]).wellFormed = false := by decide +kernel
theorem test_ill_formed_u64FromBe :
    (Instr.u64FromBe 3 [1, 2]).wellFormed = false := by decide +kernel
theorem test_ill_formed_u256FromBe :
    (Instr.u256FromBe 3 [1, 2]).wellFormed = false := by decide +kernel
theorem test_ill_formed_u384FromBe :
    (Instr.u384FromBe 3 [1, 2]).wellFormed = false := by decide +kernel
theorem test_ill_formed_long_len :
    (Instr.u384FromBe 49 (counting 49)).wellFormed = false := by decide +kernel
theorem test_well_formed_long_len : (Instr.u384FromBe 49 []).wellFormed = true := by decide +kernel
theorem test_ill_formed_u256FromBe32 :
    (Instr.u256FromBe32 (counting 31)).wellFormed = false := by decide +kernel
theorem test_ill_formed_u256FromLe32 :
    (Instr.u256FromLe32 (counting 33)).wellFormed = false := by decide +kernel
theorem test_ill_formed_u256FromBe20 :
    (Instr.u256FromBe20 (counting 21)).wellFormed = false := by decide +kernel

/-! ### Decoding, on frames written out from R60 and R70 -/

theorem decode_divmod128 :
    decode (cmd (7 * 2 ^ 400 + 100 * 2 ^ 16 + 0x10)) =
      .ok (.divmod128 100 7) := rfl
theorem decode_divmod192 :
    decode (cmd (7 * 2 ^ 400 + 100 * 2 ^ 16 + 0x11)) =
      .ok (.divmod192 100 7) := rfl
theorem decode_umin :
    decode (cmd (9 * 2 ^ 400 + 3 * 2 ^ 16 + 0x20)) =
      .ok (.umin 3 9) := rfl
theorem decode_umax :
    decode (cmd (9 * 2 ^ 400 + 3 * 2 ^ 16 + 0x21)) =
      .ok (.umax 3 9) := rfl
theorem decode_ceil32 :
    decode (cmd 0x21e0030) =
      .ok (.ceil32 0x21e) := rfl
theorem decode_bitlen :
    decode (cmd 0x2200031) =
      .ok (.bitlen 0x220) := rfl
theorem decode_uintFromBe :
    decode (cmd 0x302010332) =
      .ok (.uintFromBe 3 [1, 2, 3]) := rfl
theorem decode_u64FromBe :
    decode (cmd 0xf0debc9a785634120833) =
      .ok (.u64FromBe 8 [0x12, 0x34, 0x56, 0x78, 0x9a, 0xbc, 0xde, 0xf0]) := rfl
theorem decode_u256FromBe32 :
    decode (cmd 0x201f1e1d1c1b1a191817161514131211100f0e0d0c0b0a0908070605040302010040) =
      .ok (.u256FromBe32 (counting 32)) := rfl
theorem decode_u256ToBe32 :
    decode (cmd 0x2200041) =
      .ok (.u256ToBe32 0x220) := rfl
theorem decode_u256FromLe32 :
    decode (cmd 0x201f1e1d1c1b1a191817161514131211100f0e0d0c0b0a0908070605040302010042) =
      .ok (.u256FromLe32 (counting 32)) := rfl
theorem decode_u256ToLe32 :
    decode (cmd 0x2200043) =
      .ok (.u256ToLe32 0x220) := rfl
theorem decode_u256FromBe20 :
    decode (cmd 0x1f1e1d1c1b1a19181716151413121110efbeadde0044) =
      .ok (.u256FromBe20
      [0xde, 0xad, 0xbe, 0xef, 0x10, 0x11, 0x12, 0x13, 0x14, 0x15, 0x16, 0x17, 0x18, 0x19,
      0x1a, 0x1b, 0x1c, 0x1d, 0x1e, 0x1f]) := rfl
theorem decode_u256ToBe20 :
    decode (cmd 0xdeadbeef101112131415161718191a1b1c1d1e1f0045) =
      .ok (.u256ToBe20 0xdeadbeef101112131415161718191a1b1c1d1e1f) := rfl
theorem decode_u256FromBe :
    decode (cmd 0x10246) =
      .ok (.u256FromBe 2 [1, 0]) := rfl
theorem decode_u256Add :
    decode (cmd (2 ^ 400 + (2 ^ 256 - 1) * 2 ^ 16 + 0x50)) =
      .ok (.u256Add (u (2 ^ 256 - 1)) 1) := rfl
theorem decode_u256Addc :
    decode (cmd (2 ^ 400 + (2 ^ 256 - 1) * 2 ^ 16 + 0x51)) =
      .ok (.u256Addc (u (2 ^ 256 - 1)) 1) := rfl
theorem decode_u256Sub :
    decode (cmd (6 * 2 ^ 400 + 5 * 2 ^ 16 + 0x52)) =
      .ok (.u256Sub 5 6) := rfl
theorem decode_u256Mul :
    decode (cmd (6 * 2 ^ 400 + 5 * 2 ^ 16 + 0x53)) =
      .ok (.u256Mul 5 6) := rfl
theorem decode_u256Le :
    decode (cmd (2 * 2 ^ 400 + 3 * 2 ^ 16 + 0x54)) =
      .ok (.u256Le 3 2) := rfl
theorem decode_u256Min :
    decode (cmd (2 * 2 ^ 400 + 3 * 2 ^ 16 + 0x55)) =
      .ok (.u256Min 3 2) := rfl
theorem decode_u256Max :
    decode (cmd (2 * 2 ^ 400 + 3 * 2 ^ 16 + 0x56)) =
      .ok (.u256Max 3 2) := rfl
theorem decode_u256Eq :
    decode (cmd (2 * 2 ^ 400 + 3 * 2 ^ 16 + 0x57)) =
      .ok (.u256Eq 3 2) := rfl
theorem decode_u256FromUint :
    decode (cmd 0x2200058) =
      .ok (.u256FromUint 0x220) := rfl
theorem decode_u256ToUint :
    decode (cmd 0x2200059) =
      .ok (.u256ToUint 0x220) := rfl
theorem decode_u384Iszero :
    decode (cmd ((2 ^ 384 - 1) * 2 ^ 16 + 0x60)) =
      .ok (.u384Iszero (x (2 ^ 384 - 1))) := rfl
theorem decode_u384Isone :
    decode (cmd 0x10061) =
      .ok (.u384Isone 1) := rfl
theorem decode_u384FromBe :
    decode (cmd 0xd0c0b0a0908070605040302010d62) =
      .ok (.u384FromBe 13 (counting 13)) := rfl
theorem decode_u384ToBe :
    decode (cmd 0x102030405060708090a0b0c0d0d63) =
      .ok (.u384ToBe 0x0102030405060708090a0b0c0d 13) := rfl
theorem decode_u384Eq :
    decode (cmd (2 ^ 400 + 0x102030405060708090a0b0c0d0064)) =
      .ok (.u384Eq 0x0102030405060708090a0b0c0d 1) := rfl
theorem decode_taylor :
    decode (cmd (2 * 2 ^ 784 + 8 * 2 ^ 400 + 10 * 2 ^ 16 + 0x70)) =
      .ok (.taylor 10 8 2) := rfl
/-- T-ENC-5: `len`, slot `C` and the bits above a field are not read. -/
theorem decode_ignored_fields :
    decode (cmd (12345 * 2 ^ 784 + (7 + 2 ^ 300) * 2 ^ 400 + (100 + 0xdead * 2 ^ 256) * 2 ^ 16 +
      0x77 * 2 ^ 8 + 0x10)) = .ok (.divmod128 100 7) := rfl
theorem decode_long_len :
    decode (cmd (0x0504030201 * 2 ^ 16 + 49 * 2 ^ 8 + 0x62)) = .ok (.u384FromBe 49 []) := rfl
theorem decode_illegal_00 : decode (cmd 0x00) = .error (.illegalCommand 0x00) := rfl
theorem decode_illegal_12 : decode (cmd 0x12) = .error (.illegalCommand 0x12) := rfl
theorem decode_illegal_5a : decode (cmd 0x5A) = .error (.illegalCommand 0x5A) := rfl
theorem decode_illegal_65 : decode (cmd 0x65) = .error (.illegalCommand 0x65) := rfl
theorem decode_illegal_71 : decode (cmd 0x71) = .error (.illegalCommand 0x71) := rfl
theorem decode_illegal_ff : decode (cmd 0xFF) = .error (.illegalCommand 0xFF) := rfl
theorem encode_f1 :
    encode (.divmod128 100 7) = cmd (7 * 2 ^ 400 + 100 * 2 ^ 16 + 0x10) := by decide +kernel
theorem encode_f2 : encode (.uintFromBe 3 [1, 2, 3]) = cmd 0x302010332 := by decide +kernel
theorem table_word_of_op : decodeTableWord 8 0x70 = some (.taylor 0 0 0) := by decide +kernel

/-! ### One command each, on the block after reset -/

/-- T-DIV-10 -/
theorem test_divmod128 :
    answer (.divmod128 (u (2 ^ 252 - 1)) (u (2 ^ 124))) = some ⟨0, 0, x (2 ^ 128 - 1), x (2 ^ 124 - 1)⟩ := by decide +kernel
/-- T-DIV-13 -/
theorem test_divmod128_divisor_first :
    answer (.divmod128 (u (2 ^ 252)) 0) = some ⟨1, 0, 0, 0⟩ := by decide +kernel
/-- T-DIV-22 -/
theorem test_divmod192 :
    answer (.divmod192 (u (2 ^ 251 + 12345)) (u (2 ^ 60 - 1))) = some ⟨0, 0, 0x800000000000000800000000000000800000000000000800, 0x3839⟩ := by decide +kernel
/-- T-DIV-18 -/
theorem test_divmod192_quotient :
    answer (.divmod192 (u (2 ^ 192)) 1) = some ⟨1, 0, 0, 0⟩ := by decide +kernel
/-- T-CMP-2 -/
theorem test_umin : answer (.umin 9 3) = some ⟨0, 0, 3, 0⟩ := by decide +kernel
/-- T-CMP-9 -/
theorem test_umin_domain : answer (.umin (u (2 ^ 252)) 1) = some ⟨3, 0, 0, 0⟩ := by decide +kernel
/-- T-CMP-8 -/
theorem test_umax :
    answer (.umax 0 (u (2 ^ 252 - 1))) = some ⟨0, 0, x (2 ^ 252 - 1), 0⟩ := by decide +kernel
/-- T-CMP-10 -/
theorem test_umax_domain :
    answer (.umax 1 (u (2 ^ 256 - 1))) = some ⟨3, 0, 0, 0⟩ := by decide +kernel
/-- T-UH-5 -/
theorem test_ceil32 : answer (.ceil32 33) = some ⟨0, 0, 64, 0⟩ := by decide +kernel
/-- T-UH-8 -/
theorem test_ceil32_top :
    answer (.ceil32 (u (2 ^ 252 - 31))) = some ⟨2, 0, 0, 0⟩ := by decide +kernel
/-- T-UH-18 -/
theorem test_bitlen : answer (.bitlen (u (2 ^ 251))) = some ⟨0, 0, 252, 0⟩ := by decide +kernel
/-- T-UH-20 -/
theorem test_bitlen_range : answer (.bitlen (u (2 ^ 252))) = some ⟨4, 0, 0, 0⟩ := by decide +kernel
/-- T-UH-22 -/
theorem test_uintFromBe :
    answer (.uintFromBe 3 [1, 2, 3]) = some ⟨0, 0, 66051, 0⟩ := by decide +kernel
/-- T-UH-26 -/
theorem test_uintFromBe_length :
    answer (.uintFromBe 32 (counting 32)) = some ⟨3, 0, 0, 0⟩ := by decide +kernel
/-- T-UH-27 -/
theorem test_u64FromBe :
    answer (.u64FromBe 8 [0x12, 0x34, 0x56, 0x78, 0x9a, 0xbc, 0xde, 0xf0]) = some ⟨0, 0, 0x123456789abcdef0, 0⟩ := by decide +kernel
/-- T-UH-29 -/
theorem test_u64FromBe_length :
    answer (.u64FromBe 9 (counting 9)) = some ⟨3, 0, 0, 0⟩ := by decide +kernel
/-- T-COD-1 -/
theorem test_u256FromBe32 :
    answer (.u256FromBe32 (counting 32)) = some ⟨0, 0, 
      0x0102030405060708090a0b0c0d0e0f101112131415161718191a1b1c1d1e1f20, 0⟩ := by decide +kernel
/-- T-COD-2 -/
theorem test_u256ToBe32 :
    answer (.u256ToBe32
      0x0102030405060708090a0b0c0d0e0f101112131415161718191a1b1c1d1e1f20) = some ⟨0, 32, 
      0x201f1e1d1c1b1a191817161514131211100f0e0d0c0b0a090807060504030201, 0⟩ := by decide +kernel
/-- T-COD-3 -/
theorem test_u256FromLe32 :
    answer (.u256FromLe32 (counting 32)) = some ⟨0, 0, 
      0x201f1e1d1c1b1a191817161514131211100f0e0d0c0b0a090807060504030201, 0⟩ := by decide +kernel
/-- T-COD-4 -/
theorem test_u256ToLe32 :
    answer (.u256ToLe32
      0x201f1e1d1c1b1a191817161514131211100f0e0d0c0b0a090807060504030201) = some ⟨0, 32, 
      0x201f1e1d1c1b1a191817161514131211100f0e0d0c0b0a090807060504030201, 0⟩ := by decide +kernel
/-- T-COD-5 -/
theorem test_u256FromBe20 :
    answer (.u256FromBe20
      [0xde, 0xad, 0xbe, 0xef, 0x10, 0x11, 0x12, 0x13, 0x14, 0x15, 0x16, 0x17, 0x18, 0x19,
      0x1a, 0x1b, 0x1c, 0x1d, 0x1e, 0x1f]) = some ⟨0, 0, 0xdeadbeef101112131415161718191a1b1c1d1e1f, 0⟩ := by decide +kernel
/-- T-COD-7 -/
theorem test_u256ToBe20 :
    answer (.u256ToBe20 (u ((2 ^ 32 - 1) * 2 ^ 128))) = some ⟨0, 20, 0xffffffff, 0⟩ := by decide +kernel
/-- T-COD-8 -/
theorem test_u256ToBe20_guard :
    answer (.u256ToBe20 (u (2 ^ 160))) = some ⟨2, 0, 0, 0⟩ := by decide +kernel
/-- T-COD-16 -/
theorem test_u256FromBe :
    answer (.u256FromBe 17 (1 :: List.replicate 16 0)) = some ⟨0, 0, x (2 ^ 128), 0⟩ := by decide +kernel
/-- T-COD-15 -/
theorem test_u256FromBe_length :
    answer (.u256FromBe 33 (counting 33)) = some ⟨3, 0, 0, 0⟩ := by decide +kernel
/-- T-ARI-3 -/
theorem test_u256Add :
    answer (.u256Add (u (2 ^ 128 - 1)) 1) = some ⟨0, 0, x (2 ^ 128), 0⟩ := by decide +kernel
/-- T-ARI-1 -/
theorem test_u256Add_overflow :
    answer (.u256Add (u (2 ^ 256 - 1)) 1) = some ⟨2, 0, 0, 0⟩ := by decide +kernel
/-- T-ARI-6 -/
theorem test_u256Addc :
    answer (.u256Addc (u (2 ^ 255 + 7)) (u (2 ^ 255 + 9))) = some ⟨0, 0, 16, 1⟩ := by decide +kernel
/-- T-ARI-23 -/
theorem test_u256Addc_no_carry : answer (.u256Addc 1 2) = some ⟨0, 0, 3, 0⟩ := by decide +kernel
/-- T-ARI-8 -/
theorem test_u256Sub :
    answer (.u256Sub (u (2 ^ 128)) 1) = some ⟨0, 0, x (2 ^ 128 - 1), 0⟩ := by decide +kernel
/-- T-ARI-9 -/
theorem test_u256Sub_underflow : answer (.u256Sub 5 6) = some ⟨2, 0, 0, 0⟩ := by decide +kernel
/-- T-ARI-13 -/
theorem test_u256Mul :
    answer (.u256Mul (u (2 ^ 128 - 1)) (u (2 ^ 128 - 1))) = some ⟨0, 0, 0xfffffffffffffffffffffffffffffffe00000000000000000000000000000001, 0⟩ := by decide +kernel
/-- T-ARI-12 -/
theorem test_u256Mul_overflow :
    answer (.u256Mul (u (2 ^ 128)) (u (2 ^ 128))) = some ⟨2, 0, 0, 0⟩ := by decide +kernel
/-- T-ARI-17 -/
theorem test_u256Le :
    answer (.u256Le (u (2 ^ 128)) (u (2 ^ 128 - 1))) = some ⟨0, 0, 0, 0⟩ := by decide +kernel
/-- T-ARI-16 -/
theorem test_u256Le_equal : answer (.u256Le 5 5) = some ⟨0, 0, 1, 0⟩ := by decide +kernel
/-- T-ARI-19 -/
theorem test_u256Min :
    answer (.u256Min (u (2 ^ 128)) (u (2 ^ 128 - 1))) = some ⟨0, 0, x (2 ^ 128 - 1), 0⟩ := by decide +kernel
/-- T-ARI-20 -/
theorem test_u256Max :
    answer (.u256Max (u (2 ^ 128)) (u (2 ^ 128 - 1))) = some ⟨0, 0, x (2 ^ 128), 0⟩ := by decide +kernel
/-- T-ARI-21 -/
theorem test_u256Eq : answer (.u256Eq 7 7) = some ⟨0, 0, 1, 0⟩ := by decide +kernel
/-- T-ARI-22 -/
theorem test_u256Eq_high :
    answer (.u256Eq 7 (u (2 ^ 128 + 7))) = some ⟨0, 0, 0, 0⟩ := by decide +kernel
/-- T-ARI-25 -/
theorem test_u256FromUint :
    answer (.u256FromUint (u (2 ^ 200 + 3))) = some ⟨0, 0, x (2 ^ 200 + 3), 0⟩ := by decide +kernel
/-- T-ARI-26 -/
theorem test_u256FromUint_domain :
    answer (.u256FromUint (u (2 ^ 252))) = some ⟨3, 0, 0, 0⟩ := by decide +kernel
/-- T-ARI-27 -/
theorem test_u256ToUint :
    answer (.u256ToUint (u (2 ^ 252 - 1))) = some ⟨0, 0, x (2 ^ 252 - 1), 0⟩ := by decide +kernel
/-- T-ARI-28 -/
theorem test_u256ToUint_bound :
    answer (.u256ToUint (u (2 ^ 252))) = some ⟨3, 0, 0, 0⟩ := by decide +kernel
/-- T-384-18 -/
theorem test_u384Iszero : answer (.u384Iszero 0) = some ⟨0, 0, 1, 0⟩ := by decide +kernel
/-- T-384-19 -/
theorem test_u384Iszero_d3 :
    answer (.u384Iszero (x (2 ^ 288))) = some ⟨0, 0, 0, 0⟩ := by decide +kernel
/-- T-384-20 -/
theorem test_u384Isone : answer (.u384Isone 1) = some ⟨0, 0, 1, 0⟩ := by decide +kernel
/-- T-384-21 -/
theorem test_u384Isone_d1 :
    answer (.u384Isone (x (2 ^ 96 + 1))) = some ⟨0, 0, 0, 0⟩ := by decide +kernel
/-- T-384-4 -/
theorem test_u384FromBe :
    answer (.u384FromBe 13 (counting 13)) = some ⟨0, 0, x (0x01 * 2 ^ 96 + 0x02030405060708090a0b0c0d), 0⟩ := by decide +kernel
/-- T-384-8 -/
theorem test_u384FromBe_length : answer (.u384FromBe 49 []) = some ⟨3, 0, 0, 0⟩ := by decide +kernel
/-- T-384-12 -/
theorem test_u384ToBe :
    answer (.u384ToBe (x (0x0102 * 2 ^ 96 + 0xaabbccddeeff001122334455)) 14) = some ⟨0, 14, 0x554433221100ffeeddccbbaa0201, 0⟩ := by decide +kernel
/-- T-384-13 -/
theorem test_u384ToBe_fit :
    answer (.u384ToBe (x (0x0102 * 2 ^ 96 + 0xaabbccddeeff001122334455)) 13) = some ⟨2, 0, 0, 0⟩ := by decide +kernel
/-- T-384-23 -/
theorem test_u384Eq :
    answer (.u384Eq (x (4 * 2 ^ 288 + 3 * 2 ^ 192 + 2 * 2 ^ 96 + 1))
      (x (4 * 2 ^ 288 + 3 * 2 ^ 192 + 2 * 2 ^ 96 + 1))) = some ⟨0, 0, 1, 0⟩ := by decide +kernel
/-- T-384-24 -/
theorem test_u384Eq_d3 :
    answer (.u384Eq (x (4 * 2 ^ 288 + 3 * 2 ^ 192 + 2 * 2 ^ 96 + 1))
      (x (5 * 2 ^ 288 + 3 * 2 ^ 192 + 2 * 2 ^ 96 + 1))) = some ⟨0, 0, 0, 0⟩ := by decide +kernel
/-- T-TAY-17 -/
theorem test_taylor : answer (.taylor 10 8 2) = some ⟨0, 0, 542, 0⟩ := by decide +kernel
/-- T-TAY-11 -/
theorem test_taylor_saturates :
    answer (.taylor 1 (u (2 ^ 127)) 1) = some ⟨0, 0, x (2 ^ 127 + 1), 0⟩ := by decide +kernel

/-! ### Whole frames, reset, and host programs -/

/-- F1 -/
theorem frame_f1 :
    answerFrame (7 * 2 ^ 400 + 100 * 2 ^ 16 + 0x10) = some (BitVec.ofNat 784 (2 * 2 ^ 400 + 14 * 2 ^ 16)) := by decide +kernel
/-- F4 -/
theorem frame_f4 : answerFrame 0 = some 0xFF := by decide +kernel
/-- P4, step 8 -/
theorem frame_p4_step8 :
    answerFrame 0x102030405060708090a0b0c0d0d63 = some 0xd0c0b0a0908070605040302010d00 := by decide +kernel
theorem step_reset : step State.reset = .next State.reset := rfl
/-- The command of the table word 0x70 alone, TAYLOR 0, 0, 0, ends in DivisionError (T-TAY-9). -/
theorem step_table_word :
    firstResponse (step (State.reset.withFetchWord 8 0x70)) = some 1 := by decide +kernel
theorem reset_drops : ((State.reset.issue (cmd 0)).applyReset) = State.reset := by decide +kernel
/-- P3, run A. -/
def programA : List HostCommand :=
  [⟨0x50, .value 0, .value (x (2 ^ 256 - 1)), .value 1, .value 0⟩,
    ⟨0x41, .value 0, .r0 0, .value 0, .value 0⟩]

/-- P3, run B, steps 1 and 3. -/
def programB : List HostCommand :=
  [⟨0x51, .value 0, .value (x (2 ^ 256 - 1)), .value 1, .value 0⟩,
    ⟨0x41, .value 0, .r0 0, .value 0, .value 0⟩]

theorem program_p3_a :
    runHostProgram programA [] State.reset = (.stopped 2, State.reset) := by decide +kernel
theorem program_p3_b :
    runHostProgram programB [] State.reset =
      (.finished [⟨0, 0, 0, 1⟩, ⟨0, 32, 0, 0⟩], State.reset) := by decide +kernel
/-- n = BITLEN 8191 (13), then U384_TO_BE v, n, with the v of P4. -/
def programLen : List HostCommand :=
  [⟨0x31, .value 0, .value 8191, .value 0, .value 0⟩,
    ⟨0x63, .r0 0, .value 0x0102030405060708090a0b0c0d, .value 0, .value 0⟩]

/-- The length of U384_TO_BE is the result of a BITLEN (P4, step 8). -/
theorem program_len_from_result :
    runHostProgram programLen [] State.reset =
      (.finished [⟨0, 0, 13, 0⟩, ⟨0, 13, 0x0d0c0b0a090807060504030201, 0⟩], State.reset) := by decide +kernel
theorem safe_p3_b :
    ((runHostProgram programB [] State.reset).1).Safe := by
  rw [program_p3_b]
  trivial

/-! ### Witnesses: operands that meet the hypotheses of each statement -/

/-- O3: `v < 256^n`. -/
theorem witness_ByteSequenceValuesAreSums :
    (255 : Nat) < 256 ^ 1 ∧
    (0 : Nat) < 256 ^ 0 ∧
    (2 ^ 384 - 1 : Nat) < 256 ^ 48 := by decide +kernel
/-- O5: the first and the last illegal `op`. -/
theorem witness_IllegalOpcodesAreTheOther225 :
    Opcode.ofByte (cmd 0x00).op = none ∧
    Opcode.ofByte (cmd 0xFF).op = none := by decide +kernel
/-- O6, O9: a frame that decodes. -/
theorem witness_StepRunsDecodedCommand :
    decode (cmd (7 * 2 ^ 400 + 100 * 2 ^ 16 + 0x10)) = .ok (.divmod128 100 7) := decode_divmod128
/-- O8: well-formed commands, the lengths at their bounds. -/
theorem witness_EncodeThenDecodeGivesCommandBack :
    (Instr.uintFromBe 0 []).wellFormed = true ∧
    (Instr.u384FromBe 48 (counting 48)).wellFormed = true ∧
    (Instr.u384FromBe 255 []).wellFormed = true ∧
    (Instr.u256FromBe20 (counting 20)).wellFormed = true ∧
    (Instr.u256FromLe32 (counting 32)).wellFormed = true := by decide +kernel
/-- O11: the frames of F1 and T-ENC-5 differ and agree on what DIVMOD128 reads. -/
theorem witness_UnreadBitsAreIgnored :
    let f := cmd (7 * 2 ^ 400 + 100 * 2 ^ 16 + 0x10)
    let g := cmd (12345 * 2 ^ 784 + (7 + 2 ^ 300) * 2 ^ 400 + (100 + 0xdead * 2 ^ 256) * 2 ^ 16 +
      0x77 * 2 ^ 8 + 0x10)
    f ≠ g ∧ f.op = g.op ∧ ∀ o : Opcode, f.op = o.byte → o.format.Agree f g := by
  refine ⟨by decide +kernel, by decide +kernel, fun o ho => ?_⟩
  have h : some o = some .divmod128 := by
    rw [← Laws.ofByte_byte o, ← ho]
    decide +kernel
  cases h
  exact ⟨by decide +kernel, by decide +kernel⟩

/-- O11: two illegal frames with one `op` agree on what their operation reads: there is none. -/
theorem witness_UnreadBitsAreIgnored_illegal :
    (cmd 0x12).op = (cmd 0x4412).op ∧
    ∀ o : Opcode, (cmd 0x12).op = o.byte → o.format.Agree (cmd 0x12) (cmd 0x4412) := by
  refine ⟨by decide +kernel, fun o ho => ?_⟩
  have h : Opcode.ofByte (cmd 0x12).op = some o := by rw [ho, Laws.ofByte_byte]
  exact absurd h (by cases o <;> decide +kernel)

/-- O11: U384_FROM_BE with `len` 49 reads no lane, and with `len` 1 reads one. -/
theorem witness_UnreadBitsAreIgnored_sequence :
    Format.S.Agree (cmd 0x013162) (cmd 0x023162) ∧
    Format.S.Agree (cmd 0x01020162) (cmd 0x03020162) := by
  refine ⟨⟨by decide +kernel, fun h => absurd h (by decide +kernel)⟩, by decide +kernel, ?_⟩
  intro _ k hk
  have h1 : (cmd 0x01020162).len.toNat = 1 := by decide +kernel
  rw [h1] at hk
  interval_cases k
  decide +kernel

/-- O12: a state with a command waiting and a legal response returned, and its step. -/
theorem witness_EveryStepKeepsResponsesLegal :
    State.ResponsesLegal ⟨[cmd 0], [1]⟩ ∧ step ⟨[cmd 0], [1]⟩ = .next ⟨[], [1, 0xFF]⟩ := by
  refine ⟨fun f hf => ?_, rfl⟩
  rw [List.mem_singleton] at hf
  subst hf
  unfold Response.Legal
  decide +kernel

/-- O14: as many steps as commands. -/
theorem witness_ResponseIsFunctionOfItsFrameAlone :
    ([cmd 0x70, cmd 0] : List CommandFrame).length ≤ 2 ∧
    ([] : List CommandFrame).length ≤ 0 := by decide +kernel
/-- O21, O24: a command that succeeds, and the response it gets. -/
theorem witness_ResultsStayInTheirType :
    (Instr.divmod128 100 7).wellFormed = true ∧
    exec (.divmod128 100 7) State.reset = .next (State.reset.reply ⟨0, 0, 14, 2⟩) ∧
    (Instr.divmod128 100 7).opcode ∉ [Opcode.u384FromBe, Opcode.u384ToBe] := ⟨rfl, rfl, by decide +kernel⟩
/-- O21: a command of each of the two lists. -/
theorem witness_ResultsStayInTheirType_domain :
    (Instr.taylor 1 1 1).opcode ∈ [Opcode.divmod128, Opcode.divmod192, Opcode.umin, Opcode.umax,
      Opcode.ceil32, Opcode.uintFromBe, Opcode.u256ToUint, Opcode.taylor] ∧
    (Instr.taylor 1 1 1).opcode ∉ [Opcode.u384FromBe, Opcode.u384ToBe] ∧
    exec (.taylor 1 1 1) State.reset = .next (State.reset.reply ⟨0, 0, 2, 0⟩) := ⟨by decide +kernel, by decide +kernel, rfl⟩
/-- O22: the opcode, and each clause at its bound. -/
theorem witness_Divmod128Divides :
    (cmd (7 * 2 ^ 400 + 100 * 2 ^ 16 + 0x10)).extractLsb' 0 8 = 0x10 ∧
    (u 0).toNat = 0 ∧
    2 ^ 128 < (u (2 ^ 128 + 1)).toNat ∧
    (0 < (u (2 ^ 128)).toNat ∧ (u (2 ^ 128)).toNat ≤ 2 ^ 128 ∧ 2 ^ 252 ≤ (u (2 ^ 252)).toNat) ∧
    (0 < (u 1).toNat ∧ (u 1).toNat ≤ 2 ^ 128 ∧ (u (2 ^ 128)).toNat < 2 ^ 252 ∧
      2 ^ 128 ≤ (u (2 ^ 128)).toNat / (u 1).toNat) ∧
    (0 < (u 1).toNat ∧ (u 1).toNat ≤ 2 ^ 128 ∧ (u (2 ^ 128 - 1)).toNat < 2 ^ 252 ∧
      (u (2 ^ 128 - 1)).toNat / (u 1).toNat < 2 ^ 128) := by decide +kernel
/-- O23: the opcode, and each clause at its bound. -/
theorem witness_Divmod192Divides :
    (cmd (7 * 2 ^ 400 + 100 * 2 ^ 16 + 0x11)).extractLsb' 0 8 = 0x11 ∧
    (u 0).toNat = 0 ∧
    2 ^ 192 < (u (2 ^ 192 + 1)).toNat ∧
    (0 < (u (2 ^ 192)).toNat ∧ (u (2 ^ 192)).toNat ≤ 2 ^ 192 ∧ 2 ^ 252 ≤ (u (2 ^ 252)).toNat) ∧
    (0 < (u 1).toNat ∧ (u 1).toNat ≤ 2 ^ 192 ∧ (u (2 ^ 192)).toNat < 2 ^ 252 ∧
      2 ^ 192 ≤ (u (2 ^ 192)).toNat / (u 1).toNat) ∧
    (0 < (u 1).toNat ∧ (u 1).toNat ≤ 2 ^ 192 ∧ (u (2 ^ 192 - 1)).toNat < 2 ^ 252 ∧
      (u (2 ^ 192 - 1)).toNat / (u 1).toNat < 2 ^ 192) := by decide +kernel
/-- O24: T-DIV-1 at both widths. -/
theorem witness_DivmodResultsAreExact :
    (⟨0, 0, 14, 2⟩ : Response).status = 0x00 ∧
    exec (.divmod128 100 7) State.reset = .next (State.reset.reply ⟨0, 0, 14, 2⟩) ∧
    exec (.divmod192 100 7) State.reset = .next (State.reset.reply ⟨0, 0, 14, 2⟩) := ⟨rfl, rfl, rfl⟩
/-- O25, O26: the opcodes, and operands on both sides of the bound. -/
theorem witness_ComparatorsPickAnOperand :
    (cmd 0x20).extractLsb' 0 8 = 0x20 ∧
    (cmd 0x21).extractLsb' 0 8 = 0x21 ∧
    2 ^ 252 ≤ (u (2 ^ 252)).toNat ∧
    (u (2 ^ 252 - 1)).toNat < 2 ^ 252 := by decide +kernel
/-- O27: the opcode, and each clause at its bound. -/
theorem witness_Ceil32RoundsUp :
    (cmd 0x30).extractLsb' 0 8 = 0x30 ∧
    2 ^ 252 ≤ (u (2 ^ 252)).toNat ∧
    ((u (2 ^ 252 - 31)).toNat < 2 ^ 252 ∧ 2 ^ 252 - 32 < (u (2 ^ 252 - 31)).toNat) ∧
    (u (2 ^ 252 - 32)).toNat ≤ 2 ^ 252 - 32 := by decide +kernel
/-- O28: the opcode, and each clause at its bound. -/
theorem witness_BitlenCountsBits :
    (cmd 0x31).extractLsb' 0 8 = 0x31 ∧
    2 ^ 252 ≤ (u (2 ^ 252)).toNat ∧
    (u (2 ^ 252 - 1)).toNat < 2 ^ 252 ∧
    (u 0).toNat = 0 ∧
    (u 1).toNat ≠ 0 := by decide +kernel
/-- O29: the clauses at their bound. -/
theorem witness_BitlenIsALeadingZeroCounter :
    (u (2 ^ 252)).clz.toNat < 4 ∧
    4 ≤ (u (2 ^ 252 - 1)).clz.toNat := by decide +kernel
/-- O30: the opcodes, and the lengths at their bounds. -/
theorem witness_BoundedDecodersReadBigEndian :
    (cmd 0x32).extractLsb' 0 8 = 0x32 ∧
    (cmd 0x33).extractLsb' 0 8 = 0x33 ∧
    (cmd 0x46).extractLsb' 0 8 = 0x46 ∧
    31 < (32 : Byte).toNat ∧
    (31 : Byte).toNat ≤ 31 ∧
    8 < (9 : Byte).toNat ∧
    (8 : Byte).toNat ≤ 8 ∧
    32 < (33 : Byte).toNat ∧
    (32 : Byte).toNat ≤ 32 := by decide +kernel
/-- O31, O32, O34, O36, O37: the opcodes and 32 bytes. -/
theorem witness_Be32CodecReversesBytes :
    (cmd 0x40).extractLsb' 0 8 = 0x40 ∧
    (cmd 0x41).extractLsb' 0 8 = 0x41 ∧
    (cmd 0x42).extractLsb' 0 8 = 0x42 ∧
    (cmd 0x43).extractLsb' 0 8 = 0x43 ∧
    (counting 32).length = 32 := by decide +kernel
/-- O33, O36, O37: the opcodes, 20 bytes, and the guard at its bound. -/
theorem witness_Be20CodecSplitsAtFourBytes :
    (cmd 0x44).extractLsb' 0 8 = 0x44 ∧
    (cmd 0x45).extractLsb' 0 8 = 0x45 ∧
    (counting 20).length = 20 ∧
    2 ^ 32 - 1 < ((u (2 ^ 160)).extractLsb' 128 128).toNat ∧
    ((u (2 ^ 160 - 1)).extractLsb' 128 128).toNat ≤ 2 ^ 32 - 1 := by decide +kernel
/-- O34: the opcodes. -/
theorem witness_ThirtyTwoByteCodecsAtBitLevel :
    (cmd 0x40).op = 0x40 ∧
    (cmd 0x41).op = 0x41 ∧
    (cmd 0x42).op = 0x42 ∧
    (cmd 0x43).op = 0x43 := by decide +kernel
/-- O35: both clauses, the guard at its bound. -/
theorem witness_TwentyByteCodecsAtBitLevel :
    (cmd 0x44).op = 0x44 ∧
    (((cmd ((2 ^ 160 - 1) * 2 ^ 16 + 0x45)).slotA.extractLsb' 128 128).toNat ≤ 2 ^ 32 - 1 ∧
      (cmd ((2 ^ 160 - 1) * 2 ^ 16 + 0x45)).op = 0x45) := by decide +kernel
/-- O36: each clause. -/
theorem witness_ThirtyTwoAndTwentyByteRoundTrips :
    (counting 32).length = 32 ∧
    (counting 20).length = 20 ∧
    (u (2 ^ 160 - 1)).toNat < 2 ^ 160 := by decide +kernel
/-- O37: each clause. -/
theorem witness_VariableDecoderAgreesWithFixedOnes :
    (counting 32).length = 32 ∧
    (counting 20).length = 20 ∧
    Opcode.taylor.byte = Opcode.taylor.byte := by decide +kernel
/-- O38, O42: the opcode, and the clauses at their bound (S6). -/
theorem witness_AddIsCheckedAt256Bits :
    (cmd 0x50).extractLsb' 0 8 = 0x50 ∧
    2 ^ 256 ≤ (u (2 ^ 256 - 1)).toNat + (u 1).toNat ∧
    (u (2 ^ 256 - 2)).toNat + (u 1).toNat < 2 ^ 256 := by decide +kernel
/-- O39: the opcode, and both values of the carry (T-ARI-5). -/
theorem witness_AddcReturnsSumAndCarry :
    (cmd 0x51).extractLsb' 0 8 = 0x51 ∧
    answer (.u256Addc (u (2 ^ 256 - 2)) 1) = some ⟨0, 0, x (2 ^ 256 - 1), 0⟩ ∧
    answer (.u256Addc (u (2 ^ 256 - 1)) 1) = some ⟨0, 0, 0, 1⟩ := by decide +kernel
/-- O40: the opcode, and the clauses at their bound. -/
theorem witness_SubIsCheckedForUnderflow :
    (cmd 0x52).extractLsb' 0 8 = 0x52 ∧
    (u 5).toNat < (u 6).toNat ∧
    (u 6).toNat ≤ (u 6).toNat := by decide +kernel
/-- O41: the opcode, and the clauses at their bound (T-ARI-12, T-ARI-15). -/
theorem witness_MulIsCheckedAt256Bits :
    (cmd 0x53).extractLsb' 0 8 = 0x53 ∧
    2 ^ 256 ≤ (u (2 ^ 128)).toNat * (u (2 ^ 128)).toNat ∧
    (u (2 ^ 256 - 1)).toNat * (u 1).toNat < 2 ^ 256 := by decide +kernel
/-- O42: the sum at its bound. -/
theorem witness_AddThenSubGivesBack :
    (u (2 ^ 256 - 2)).toNat + (u 1).toNat < 2 ^ 256 := by decide +kernel
/-- O43, O44: the opcodes. -/
theorem witness_LeOrdersByHighLimbFirst :
    (cmd 0x54).extractLsb' 0 8 = 0x54 ∧
    (cmd 0x55).extractLsb' 0 8 = 0x55 ∧
    (cmd 0x56).extractLsb' 0 8 = 0x56 := by decide +kernel
/-- O45: the opcode, equal limbs, and limbs that differ in `high` only (T-ARI-22). -/
theorem witness_EqComparesLimbs :
    (cmd 0x57).extractLsb' 0 8 = 0x57 ∧
    ((u 7).extractLsb' 0 128 = (u 7).extractLsb' 0 128 ∧
      (u 7).extractLsb' 128 128 = (u 7).extractLsb' 128 128) ∧
    ¬((u 7).extractLsb' 0 128 = (u (2 ^ 128 + 7)).extractLsb' 0 128 ∧
      (u 7).extractLsb' 128 128 = (u (2 ^ 128 + 7)).extractLsb' 128 128) := by decide +kernel
/-- O46: the opcodes, and the clauses at their bound. -/
theorem witness_UintConversionsKeepTheValue :
    (cmd 0x58).extractLsb' 0 8 = 0x58 ∧
    (cmd 0x59).extractLsb' 0 8 = 0x59 ∧
    2 ^ 252 ≤ (u (2 ^ 252)).toNat ∧
    (u (2 ^ 252 - 1)).toNat < 2 ^ 252 := by decide +kernel
/-- O47: the opcodes. -/
theorem witness_U384TestsExamineEveryLimb :
    (cmd 0x60).extractLsb' 0 8 = 0x60 ∧
    (cmd 0x61).extractLsb' 0 8 = 0x61 ∧
    (cmd 0x64).extractLsb' 0 8 = 0x64 := by decide +kernel
/-- O48, O50: the opcode, and the lengths at their bounds. -/
theorem witness_U384FromBeDistributesBytesOverLimbs :
    (cmd 0x62).extractLsb' 0 8 = 0x62 ∧
    48 < (49 : Byte).toNat ∧
    ((48 : Byte).toNat ≤ 48 ∧ (counting 48).length = (48 : Byte).toNat) ∧
    ((0 : Byte).toNat ≤ 48 ∧ ([] : List Byte).length = (0 : Byte).toNat) := by decide +kernel
/-- O49, O50: the opcode, and each clause at its bounds (T-384-14, T-384-15). -/
theorem witness_U384ToBeEmitsLimbsUnderTheGuard :
    (cmd 0x63).extractLsb' 0 8 = 0x63 ∧
    48 < (49 : Byte).toNat ∧
    ((0 : Byte).toNat ≤ 48 ∧ 256 ^ (0 : Byte).toNat ≤ (x 1).toNat) ∧
    ((0 : Byte).toNat ≤ 48 ∧ (x 0).toNat < 256 ^ (0 : Byte).toNat) ∧
    ((48 : Byte).toNat ≤ 48 ∧ (x (2 ^ 384 - 1)).toNat < 256 ^ (48 : Byte).toNat) ∧
    ((13 : Byte).toNat ≤ 48 ∧ 256 ^ (13 : Byte).toNat ≤ (x (256 ^ 13)).toNat) := by decide +kernel
/-- O51: the opcode, and the clauses on the operands alone at their bounds. -/
theorem witness_TaylorFollowsItsLoop :
    (cmd 0x70).extractLsb' 0 8 = 0x70 ∧
    2 ^ 252 ≤ (u (2 ^ 252)).toNat ∧
    ((u (2 ^ 126)).toNat < 2 ^ 252 ∧ 2 ^ 252 ≤ (u (2 ^ 126)).toNat * (u (2 ^ 126)).toNat) ∧
    ((u (2 ^ 252 - 1)).toNat < 2 ^ 252 ∧ (u (2 ^ 252 - 1)).toNat * (u 1).toNat < 2 ^ 252) := by
  decide +kernel

/-- O51, O54: a loop that raises: TAYLOR 1, 0, 2^128+1 fails check (4) on its first pass. -/
theorem witness_TaylorFollowsItsLoop_raises :
    Series.Evaluates (u 0).toNat (u (2 ^ 128 + 1)).toNat
      ⟨0, 1, (u 1).toNat * (u (2 ^ 128 + 1)).toNat⟩ (.error .divisionError) :=
  .divisorFails _ _ _ (by decide +kernel) (by decide +kernel) (by decide +kernel)
    (by decide +kernel)

/-- O51: a loop that ends, with a closing division that succeeds, the quotient at its bound
(T-TAY-22), and one that fails (T-TAY-21). -/
theorem witness_TaylorFollowsItsLoop_ends :
    (Series.Evaluates (u 0).toNat (u 1).toNat ⟨0, 1, (u (2 ^ 128 - 1)).toNat * (u 1).toNat⟩
        (.ok (2 ^ 128 - 1)) ∧
      0 < (u 1).toNat ∧ (u 1).toNat ≤ 2 ^ 128 ∧ (2 ^ 128 - 1) / (u 1).toNat < 2 ^ 128) ∧
    (Series.Evaluates (u 0).toNat (u 1).toNat ⟨0, 1, (u (2 ^ 128)).toNat * (u 1).toNat⟩
        (.ok (2 ^ 128)) ∧
      2 ^ 128 ≤ 2 ^ 128 / (u 1).toNat) :=
  ⟨⟨.passes _ _ _ _ (by decide +kernel) (by decide +kernel) (by decide +kernel)
      (by decide +kernel) (.ended _ _), by decide +kernel, by decide +kernel, by decide +kernel⟩,
    .passes _ _ _ _ (by decide +kernel) (by decide +kernel) (by decide +kernel)
      (by decide +kernel) (.ended _ _), by decide +kernel⟩

/-- O51: the two other ways a closing division fails (T-TAY-6, T-TAY-8). -/
theorem witness_TaylorFollowsItsLoop_divisor :
    (Series.Evaluates (u 1).toNat (u 0).toNat ⟨0, 1, (u 0).toNat * (u 0).toNat⟩ (.ok 0) ∧
      (u 0).toNat = 0) ∧
    (Series.Evaluates (u 1).toNat (u (2 ^ 128 + 1)).toNat
        ⟨0, 1, (u 0).toNat * (u (2 ^ 128 + 1)).toNat⟩ (.ok 0) ∧
      2 ^ 128 < (u (2 ^ 128 + 1)).toNat) :=
  ⟨⟨.ended _ _, by decide +kernel⟩, .ended _ _, by decide +kernel⟩

/-- O52: each clause at its bounds. -/
theorem witness_TaylorOfZeroOperands :
    (u (2 ^ 252 - 1)).toNat < 2 ^ 252 ∧
    ((u 0).toNat = 0 ∧ 0 < (u (2 ^ 128)).toNat ∧ (u (2 ^ 128)).toNat ≤ 2 ^ 128) ∧
    ((u 0).toNat = 0 ∧ 2 ^ 128 < (u (2 ^ 128 + 1)).toNat) ∧
    ((u 0).toNat = 0 ∧ 0 < (u (2 ^ 128 - 1)).toNat ∧ (u (2 ^ 128 - 1)).toNat < 2 ^ 128 ∧
      0 < (u (2 ^ 123)).toNat ∧ (u (2 ^ 123)).toNat ≤ 2 ^ 128 ∧
      (u (2 ^ 128 - 1)).toNat * (u (2 ^ 123)).toNat < 2 ^ 252) := by decide +kernel
/-- O53: each clause at its bound (T-TAY-12). -/
theorem witness_TaylorSaturationKeepsTheLastTerm :
    ((1 : Nat) ≠ 0 ∧ 2 ^ 252 - 2 + 1 < 2 ^ 252 ∧ 2 ^ 128 ≤ 1 * 2 ^ 128) ∧
    ((u 1).toNat < 2 ^ 128 ∧ 0 < (u 1).toNat ∧ (u 1).toNat ≤ 2 ^ 128 ∧
      (u (2 ^ 128)).toNat < 2 ^ 252 ∧ (u 1).toNat * (u 1).toNat < 2 ^ 252 ∧
      2 ^ 128 ≤ (u 1).toNat * (u 1).toNat * (u (2 ^ 128)).toNat) := by decide +kernel
/-- O54: a pass of each kind, the sum at its bound, and check (2) passed at its bound. -/
theorem witness_SeriesWorkingVariablesStayBounded :
    ((1 : Nat) < 2 ^ 252 ∧ (⟨0, 1, 1⟩ : Series).acc < 2 ^ 252) ∧
    (⟨0, 1, 1⟩ : Series).pass 1 (2 ^ 127) = .going ⟨1, 2, 0⟩ ∧
    (⟨2 ^ 252 - 2, 1, 1⟩ : Series).pass (2 ^ 128) 1 = .ended (2 ^ 252 - 1) ∧
    (⟨5, 2, 0⟩ : Series).pass 1 1 = .ended 5 ∧
    (u (2 ^ 252 - 1)).toNat * (u 1).toNat < 2 ^ 252 ∧
    (⟨2 ^ 252 - 1, 1, 1⟩ : Series).pass 1 1 = .raised .overflowError ∧
    (⟨0, 1, 1⟩ : Series).pass 1 0 = .raised .divisionError ∧
    (⟨0, 1, 1⟩ : Series).pass 1 (2 ^ 128 + 1) = .raised .divisionError := by decide +kernel
/-- O55: TAYLOR 2^128, 0, 1 (T-TAY-21). -/
theorem witness_TaylorOfLargeFactorFaults :
    ((u (2 ^ 128)).toNat < 2 ^ 252 ∧ (u 0).toNat < 2 ^ 252 ∧ (u 1).toNat < 2 ^ 252) ∧
    (u (2 ^ 128)).toNat * (u 1).toNat < 2 ^ 252 ∧
    Series.Evaluates (u 0).toNat (u 1).toNat ⟨0, 1, (u (2 ^ 128)).toNat * (u 1).toNat⟩
      (.ok (2 ^ 128)) ∧
    0 < (u 1).toNat ∧ (u 1).toNat ≤ 2 ^ 128 ∧ 2 ^ 128 ≤ (u (2 ^ 128)).toNat :=
  ⟨by decide +kernel, by decide +kernel, witness_TaylorFollowsItsLoop_ends.2.1, by decide +kernel,
    by decide +kernel, by decide +kernel⟩

/-- O57, O59: the block after reset is idle. -/
theorem witness_HostProgramLeavesNothingBehind : State.reset.Idle := ⟨rfl, rfl⟩

/-- O58, O59: a command answered with `OK` (P3, run B, step 1), and the next one, which names its
result and takes its length from it. -/
theorem witness_HostStopsAtFirstError_ok :
    (⟨0x51, .value 0, .value (x (2 ^ 256 - 1)), .value 1, .value 0⟩ : HostCommand).frame [] =
      some (cmd (2 ^ 400 + (2 ^ 256 - 1) * 2 ^ 16 + 0x51)) ∧
    transact (cmd (2 ^ 400 + (2 ^ 256 - 1) * 2 ^ 16 + 0x51)) State.reset =
      some (⟨0, 0, 0, 1⟩, State.reset) ∧
    (⟨0, 0, 0, 1⟩ : Response).status = 0x00 ∧
    0 < ([⟨0, 0, 0, 1⟩] : List Response).length ∧
    (LenSource.rlen 0).fetch [⟨0, 13, 7, 1⟩] = some 13 ∧
    (SlotSource.rlen 0).fetch [⟨0, 13, 7, 1⟩] = some 13 ∧
    (LenSource.r0 0).fetch [⟨0, 13, 255, 1⟩] = some 255 ∧
    (LenSource.r1 0).fetch [⟨0, 13, 255, 1⟩] = some 1 ∧
    (255 : Slot).toNat ≤ 255 ∧
    (SlotSource.r0 0).fetch [⟨0, 13, 7, 1⟩] = some 7 ∧
    (SlotSource.r1 0).fetch [⟨0, 13, 7, 1⟩] = some 1 ∧
    (SlotSource.value 5).fetch [] = some 5 := by
  decide +kernel

/-- O59: a U384_TO_BE whose `len` names the R0 of an earlier command, 49 and 256. -/
theorem witness_HostIssuesItsFrameAndReadsTheAnswer :
    let c : HostCommand := ⟨0x63, .r0 0, .value 1, .value 0, .value 0⟩
    0 < ([⟨0, 0, 49, 0⟩] : List Response).length ∧
    c.len = .r0 0 ∧ c.op = 0x63 ∧ 48 < (49 : Slot).toNat ∧ 48 < (256 : Slot).toNat ∧
    c.len.fetch [⟨0, 0, 49, 0⟩] = some 49 ∧ c.a.fetch [⟨0, 0, 49, 0⟩] = some 1 ∧
    c.b.fetch [⟨0, 0, 49, 0⟩] = some 0 ∧ c.c.fetch [⟨0, 0, 49, 0⟩] = some 0 ∧
    c.frame [⟨0, 0, 49, 0⟩] = some (cmd (2 ^ 16 + 49 * 2 ^ 8 + 0x63)) ∧
    c.frame [⟨0, 0, 256, 0⟩] = some (cmd (2 ^ 16 + 255 * 2 ^ 8 + 0x63)) := by
  decide +kernel

/-- O58: a program that finishes, one that stops, and a command answered with an error (P3). -/
theorem witness_HostStopsAtFirstError :
    (runHostProgram programB [] State.reset).1 = .finished [⟨0, 0, 0, 1⟩, ⟨0, 32, 0, 0⟩] ∧
    (runHostProgram programA [] State.reset).1 = .stopped 2 ∧
    (⟨0x50, .value 0, .value (x (2 ^ 256 - 1)), .value 1, .value 0⟩ : HostCommand).frame [] =
      some (cmd (2 ^ 400 + (2 ^ 256 - 1) * 2 ^ 16 + 0x50)) ∧
    transact (cmd (2 ^ 400 + (2 ^ 256 - 1) * 2 ^ 16 + 0x50)) State.reset =
      some (⟨2, 0, 0, 0⟩, State.reset) ∧
    (⟨2, 0, 0, 0⟩ : Response).status ≠ 0x00 := by
  decide +kernel

end Sys2Proof.Tests
end

section
/-! Byte sequences as numbers (spec 00_scope.md R9): the weights of the bytes in both orders, and
the encoders as the inverses of `be` and `le`. -/

namespace Sys2Proof.Proofs

open Sys2Proof.Machine Sys2Proof.Laws

/-- Behind a first byte every byte of a sequence has one index more. -/
theorem sum_cons (b : Byte) (s : List Byte) (f : Byte → Nat → Nat) :
    ∑ k : Fin (b :: s).length, f (b :: s)[k] k = f b 0 + ∑ k : Fin s.length, f s[k] (k + 1) :=
  Fin.sum_univ_succ (n := s.length) fun k => f (b :: s)[k] k

/-- The weight `256^(n-1-k)` of a byte stays when a byte is put in front: `n` and `k` both grow
by 1. -/
theorem be_eq_sum (s : List Byte) :
    be s = ∑ k : Fin s.length, s[k].toNat * 256 ^ (s.length - 1 - k) := by
  induction s with
  | nil => rfl
  | cons b s ih =>
    calc be (b :: s)
        = b.toNat * 256 ^ s.length + ∑ k : Fin s.length, s[k].toNat * 256 ^ (s.length - 1 - k) := by
          rw [be, ih]
      _ = b.toNat * 256 ^ (s.length - 0) +
            ∑ k : Fin s.length, s[k].toNat * 256 ^ (s.length - (k + 1)) := by
          simp only [Nat.sub_sub, Nat.add_comm 1, Nat.sub_zero]
      _ = _ := (sum_cons b s fun x k => x.toNat * 256 ^ (s.length - k)).symm

/-- The weight `256^k` of a byte becomes 256 times as much when a byte is put in front. -/
theorem le_eq_sum (s : List Byte) :
    le s = ∑ k : Fin s.length, s[k].toNat * 256 ^ (k : Nat) := by
  induction s with
  | nil => rfl
  | cons b s ih =>
    have weight (x k : Nat) : 256 * (x * 256 ^ k) = x * 256 ^ (k + 1) := by ring
    calc le (b :: s)
        = b.toNat + 256 * ∑ k : Fin s.length, s[k].toNat * 256 ^ (k : Nat) := by rw [le, ih]
      _ = b.toNat * 256 ^ 0 + ∑ k : Fin s.length, s[k].toNat * 256 ^ ((k : Nat) + 1) := by
          simp only [Finset.mul_sum, weight, Nat.pow_zero, Nat.mul_one]
      _ = _ := (sum_cons b s fun x k => x.toNat * 256 ^ k).symm

theorem beBytes_eq_iff {v n : Nat} (s : List Byte) (hv : v < 256 ^ n) :
    beBytes v n = s ↔ s.length = n ∧ be s = v := by
  constructor
  · rintro rfl
    exact ⟨beBytes_length v n, by rw [be_beBytes, Nat.mod_eq_of_lt hv]⟩
  · rintro ⟨rfl, rfl⟩
    exact beBytes_be s

theorem leBytes_eq_iff {v n : Nat} (s : List Byte) (hv : v < 256 ^ n) :
    leBytes v n = s ↔ s.length = n ∧ le s = v := by
  constructor
  · rintro rfl
    exact ⟨leBytes_length v n, by rw [le_leBytes, Nat.mod_eq_of_lt hv]⟩
  · rintro ⟨rfl, rfl⟩
    exact leBytes_le s

/-- Settles O3: the sums by induction on the sequence, the inverses from the round trips. -/
theorem byteSequenceValuesAreSums : Obligations.ByteSequenceValuesAreSums :=
  ⟨fun s => ⟨be_eq_sum s, le_eq_sum s⟩,
    fun _ _ s hv => ⟨beBytes_eq_iff s hv, leBytes_eq_iff s hv⟩⟩

end Sys2Proof.Proofs
end

section
/-! One step on a waiting command, and the interface right after reset (spec 10_state.md R29, R31,
20_memory.md R46). -/

namespace Sys2Proof.Proofs

open Sys2Proof.Machine Sys2Proof.Laws

/-- A step on a frame that decodes to a command is that command, run on what is left. -/
theorem step_of_decode_ok {f : CommandFrame} {i : Instr} (hi : decode f = .ok i)
    (cs : List CommandFrame) (rs : List ResponseFrame) :
    step ⟨f :: cs, rs⟩ = exec i ⟨cs, rs⟩ := by
  obtain ⟨j, hj, hstep⟩ | ⟨hillegal, -⟩ := step_cons f cs rs
  · obtain rfl : i = j := Except.ok.inj (hi.symm.trans hj)
    exact hstep
  · cases hi.symm.trans hillegal

/-- The invariant on responses speaks only of responses that stand at the interface. -/
theorem responsesLegal_of_idle {s : State} (h : s.Idle) : s.ResponsesLegal := by
  obtain ⟨-, hresponses⟩ := h
  intro f hf
  rw [hresponses] at hf
  cases hf

theorem reset_idle : State.reset.Idle := ⟨reset_commands, reset_responses⟩

/-- Settles O6, by the two ends of a step: the illegal one needs a frame that does not decode. -/
theorem stepRunsDecodedCommand : Obligations.StepRunsDecodedCommand :=
  fun _ cs rs _ hi => step_of_decode_ok hi cs rs

/-- Settles O13: after reset the interface is idle. -/
theorem responsesLegalAfterReset : Obligations.ResponsesLegalAfterReset :=
  ⟨responsesLegal_of_idle reset_idle, reset_commands⟩

end Sys2Proof.Proofs
end

section
/-! A command sees its own operands and nothing else (spec 20_memory.md R49, R50): each meaning ends
in one and the same way from every state, so a queue is answered frame by frame. -/

namespace Sys2Proof.Proofs

open Sys2Proof.Machine Sys2Proof.Laws

/-- A meaning ends in one way, the same from every state: with fixed results, or with a fixed error
kind (30_encoding.md R62, 60_exceptions.md R201). -/
def EndsOneWay (m : State → Host.Outcome State Fault Refusal) : Prop :=
  (∃ r0 r1 rlen, ∀ s, m s = complete s r0 r1 rlen) ∨ ∃ k, ∀ s, m s = raise k s

namespace EndsOneWay

protected theorem complete (r0 r1 : Slot) (rlen : Byte) :
    EndsOneWay fun s => complete s r0 r1 rlen :=
  .inl ⟨r0, r1, rlen, fun _ => rfl⟩

protected theorem raise (k : ErrorKind) : EndsOneWay (raise k) := .inr ⟨k, fun _ => rfl⟩

/-- A check on the operands chooses the same branch from every state. -/
protected theorem ite {m n : State → Host.Outcome State Fault Refusal} {p : Prop} [Decidable p]
    (hm : EndsOneWay m) (hn : EndsOneWay n) : EndsOneWay fun s => if p then m s else n s := by
  by_cases h : p
  · simpa only [if_pos h] using hm
  · simpa only [if_neg h] using hn

/-- Either end puts one response behind those returned, the same one from every state. -/
theorem reply {m : State → Host.Outcome State Fault Refusal} (h : EndsOneWay m) :
    ∃ r : Response, ∀ s, m s = .next (s.reply r) := by
  obtain ⟨r0, r1, rlen, hm⟩ | ⟨k, hm⟩ := h
  · exact ⟨_, fun s => (hm s).trans (complete_eq s r0 r1 rlen)⟩
  · exact ⟨_, fun s => (hm s).trans (raise_eq k s)⟩

end EndsOneWay

/-! ### The operations that meanings share -/

theorem decodeBe_endsOneWay (limit : Nat) (len : Byte) (bytes : List Byte) :
    EndsOneWay (decodeBe limit len bytes) :=
  .ite (.raise _) (.complete _ _ _)

theorem divmodCommand_endsOneWay (boundedMax : Nat) (value div : UintField) :
    EndsOneWay (divmodCommand boundedMax value div) := by
  unfold divmodCommand
  cases divmod boundedMax value.toNat div.toNat with
  | error k => exact .raise k
  | ok qr => exact .complete _ _ _

theorem taylorClose_endsOneWay (output denominator : Nat) :
    EndsOneWay (taylorClose output denominator) := by
  unfold taylorClose
  cases divmod Config.BOUND128 output denominator with
  | error k => exact .raise k
  | ok qr => exact .complete _ _ _

/-- The one meaning with an arm that is no end: that arm needs the fuel to be spent, which the
overflow check before the loop rules out (46_taylor.md R192). -/
theorem execTaylor_endsOneWay (factor numerator denominator : UintField) :
    EndsOneWay (execTaylor factor numerator denominator) := by
  unfold execTaylor
  refine .ite (.raise _) ?_
  by_cases hover : Config.B ≤ factor.toNat * denominator.toNat
  · simpa only [if_pos hover] using .raise _
  · have hanswers := series_run_answers factor.toNat numerator.toNat denominator.toNat
      (Nat.lt_of_not_le hover)
    simp only [if_neg hover]
    cases hrun : Series.run numerator.toNat denominator.toNat
        (Series.fuel numerator.toNat denominator.toNat)
        (Series.start factor.toNat denominator.toNat) with
    | none => exact absurd hrun hanswers
    | some result =>
      cases result with
      | error k => exact .raise k
      | ok output => exact taylorClose_endsOneWay output denominator.toNat

/-! ### Every command, every frame, every queue -/

/-- What a command answers is fixed by its operands. -/
theorem exec_endsOneWay (i : Instr) : EndsOneWay (exec i) := by
  cases i with
  | divmod128 value div => exact divmodCommand_endsOneWay _ value div
  | divmod192 value div => exact divmodCommand_endsOneWay _ value div
  | umin a b => exact .ite (.raise _) (.ite (.complete _ _ _) (.complete _ _ _))
  | umax a b => exact .ite (.raise _) (.ite (.complete _ _ _) (.complete _ _ _))
  | ceil32 value => exact .ite (.raise _) (.ite (.raise _) (.complete _ _ _))
  | bitlen value => exact .ite (.raise _) (.complete _ _ _)
  | uintFromBe len bytes => exact decodeBe_endsOneWay _ len bytes
  | u64FromBe len bytes => exact decodeBe_endsOneWay _ len bytes
  | u256FromBe32 bytes => exact .complete _ _ _
  | u256ToBe32 m => exact .complete _ _ _
  | u256FromLe32 bytes => exact .complete _ _ _
  | u256ToLe32 m => exact .complete _ _ _
  | u256FromBe20 bytes => exact .complete _ _ _
  | u256ToBe20 m => exact .ite (.raise _) (.complete _ _ _)
  | u256FromBe len bytes => exact decodeBe_endsOneWay _ len bytes
  | u256Add a b => exact .ite (.raise _) (.complete _ _ _)
  | u256Addc a b => exact .complete _ _ _
  | u256Sub a b => exact .ite (.raise _) (.complete _ _ _)
  | u256Mul a b => exact .ite (.raise _) (.complete _ _ _)
  | u256Le a b => exact .complete _ _ _
  | u256Min a b => exact .ite (.complete _ _ _) (.complete _ _ _)
  | u256Max a b => exact .ite (.complete _ _ _) (.complete _ _ _)
  | u256Eq a b => exact .complete _ _ _
  | u256FromUint v => exact .ite (.raise _) (.complete _ _ _)
  | u256ToUint m => exact .ite (.raise _) (.complete _ _ _)
  | u384Iszero x => exact .complete _ _ _
  | u384Isone x => exact .complete _ _ _
  | u384FromBe len bytes => exact decodeBe_endsOneWay _ len bytes
  | u384ToBe x len => exact .ite (.raise _) (.ite (.raise _) (.complete _ _ _))
  | u384Eq x y => exact .complete _ _ _
  | taylor factor numerator denominator =>
    exact execTaylor_endsOneWay factor numerator denominator

/-- A step on a waiting command ends in a way its frame alone decides: as the command it decodes to,
or with `IllegalCommand` (30_encoding.md R69). -/
theorem step_endsOneWay (f : CommandFrame) :
    ∃ m, EndsOneWay m ∧ ∀ cs rs, step ⟨f :: cs, rs⟩ = m ⟨cs, rs⟩ := by
  cases hdecode : decode f with
  | ok i => exact ⟨exec i, exec_endsOneWay i, step_of_decode_ok hdecode⟩
  | error e =>
    refine ⟨raise .illegalCommand, .raise _, fun cs rs => ?_⟩
    obtain ⟨i, hi, -⟩ | ⟨-, hstep⟩ := step_cons f cs rs
    · cases hdecode.symm.trans hi
    · exact hstep

/-- A step takes the oldest command off the queue and puts behind the responses one that its frame
alone decides (R46, R49). -/
theorem step_appends_one_response (f : CommandFrame) :
    ∃ p : ResponseFrame, ∀ cs rs, step ⟨f :: cs, rs⟩ = .next ⟨cs, rs ++ [p]⟩ := by
  obtain ⟨m, hends, hstep⟩ := step_endsOneWay f
  obtain ⟨r, hreply⟩ := hends.reply
  exact ⟨r.pack, fun cs rs => (hstep cs rs).trans (hreply ⟨cs, rs⟩)⟩

theorem run_idle (k : Nat) (rs : List ResponseFrame) :
    Sys2Proof.core.run k (State.mk [] rs) = .next (State.mk [] rs) := by
  induction k with
  | zero => rfl
  | succ k ih => exact (run_next k (step_idle rs)).trans ih

/-- If each step answers its frame by `g`, a run answers the whole queue by `g`, in order (R50). -/
theorem run_answers_queue {g : CommandFrame → ResponseFrame}
    (hg : ∀ f cs rs, step ⟨f :: cs, rs⟩ = .next ⟨cs, rs ++ [g f]⟩) (cs : List CommandFrame)
    (rs : List ResponseFrame) (k : Nat) (hk : cs.length ≤ k) :
    Sys2Proof.core.run k (State.mk cs rs) = .next (State.mk [] (rs ++ cs.map g)) := by
  induction cs generalizing rs k with
  | nil => rw [List.map_nil, List.append_nil, run_idle]
  | cons f cs ih =>
    cases k with
    | zero => cases hk
    | succ k =>
      calc Sys2Proof.core.run (k + 1) (State.mk (f :: cs) rs)
          = Sys2Proof.core.run k (State.mk cs (rs ++ [g f])) := run_next k (hg f cs rs)
        _ = .next (State.mk [] (rs ++ [g f] ++ cs.map g)) := ih _ k (Nat.le_of_succ_le_succ hk)
        _ = .next (State.mk [] (rs ++ (f :: cs).map g)) := by
          rw [List.append_assoc, List.singleton_append, List.map_cons]

/-- Settles O14: the function is the response each frame gets from a step, and the queue is answered
by induction on it. -/
theorem responseIsFunctionOfItsFrameAlone : Obligations.ResponseIsFunctionOfItsFrameAlone := by
  choose g hg using step_appends_one_response
  exact ⟨g, run_answers_queue hg⟩

end Sys2Proof.Proofs
end

section
/-! Frames as numbers, and `op` alone choosing the operation (spec 30_encoding.md R60, R61, R69,
R70, R73). -/

namespace Sys2Proof.Proofs

open Sys2Proof.Machine Sys2Proof.Laws

set_option exponentiation.threshold 2000

/-! ### Frames as numbers -/

/-- In a concatenation the upper part weighs `2 ^ n`, `n` being the width of the lower part. -/
theorem toNat_append_eq_sum {m n : Nat} (x : BitVec m) (y : BitVec n) :
    (x ++ y).toNat = x.toNat * 2 ^ n + y.toNat := by
  rw [BitVec.toNat_append, ← Nat.shiftLeft_add_eq_or_of_lt y.isLt, Nat.shiftLeft_eq]

theorem ofFields_toNat (op len : Byte) (a b c : Slot) :
    (CommandFrame.ofFields op len a b c).toNat =
      op.toNat + len.toNat * 2 ^ 8 + a.toNat * 2 ^ 16 + b.toNat * 2 ^ 400 + c.toNat * 2 ^ 784 := by
  rw [CommandFrame.ofFields, BitVec.toNat_cast]
  simp only [toNat_append_eq_sum]
  ring

theorem pack_toNat (r : Response) :
    r.pack.toNat =
      r.status.toNat + r.rlen.toNat * 2 ^ 8 + r.r0.toNat * 2 ^ 16 + r.r1.toNat * 2 ^ 400 := by
  rw [Response.pack, BitVec.toNat_cast]
  simp only [toNat_append_eq_sum]
  ring

/-- Settles O1: the number by the weights of a concatenation, the readers by `Laws/Frames.lean`. -/
theorem commandFrameIsSumOfFields : Obligations.CommandFrameIsSumOfFields :=
  fun op len a b c => ⟨ofFields_toNat op len a b c, ofFields_op op len a b c,
    ofFields_len op len a b c, ofFields_slotA op len a b c, ofFields_slotB op len a b c,
    ofFields_slotC op len a b c⟩

/-- Settles O2, in the same way. -/
theorem responseFrameIsSumOfFields : Obligations.ResponseFrameIsSumOfFields :=
  fun r => ⟨pack_toNat r, unpack_pack r⟩

/-! ### The opcode map -/

/-- The operations in the order of 30_encoding.md R70. -/
def allOpcodes : List Opcode :=
  [.divmod128, .divmod192, .umin, .umax, .ceil32, .bitlen, .uintFromBe, .u64FromBe, .u256FromBe32,
    .u256ToBe32, .u256FromLe32, .u256ToLe32, .u256FromBe20, .u256ToBe20, .u256FromBe, .u256Add,
    .u256Addc, .u256Sub, .u256Mul, .u256Le, .u256Min, .u256Max, .u256Eq, .u256FromUint, .u256ToUint,
    .u384Iszero, .u384Isone, .u384FromBe, .u384ToBe, .u384Eq, .taylor]

theorem mem_allOpcodes (o : Opcode) : o ∈ allOpcodes := by
  cases o <;> decide

/-- A byte is that of some operation exactly when the column `op` of the table has it. -/
theorem eq_byte_iff_mem (b : Byte) : (∃ o : Opcode, b = o.byte) ↔ b ∈ allOpcodes.map Opcode.byte := by
  rw [List.mem_map]
  exact ⟨fun ⟨o, ho⟩ => ⟨o, mem_allOpcodes o, ho.symm⟩, fun ⟨o, _, ho⟩ => ⟨o, ho.symm⟩⟩

/-- Each operation has a byte of its own: the byte selects the operation (R70, R76). -/
theorem byte_injective : Function.Injective Opcode.byte := fun o p h =>
  Option.some.inj <| calc
    some o = Opcode.ofByte o.byte := (ofByte_byte o).symm
    _ = Opcode.ofByte p.byte := by rw [h]
    _ = some p := ofByte_byte p

theorem ofByte_eq_none_iff (b : Byte) : Opcode.ofByte b = none ↔ ∀ o : Opcode, b ≠ o.byte := by
  constructor
  · rintro h o rfl
    cases (ofByte_byte o).symm.trans h
  · intro h
    cases ho : Opcode.ofByte b with
    | none => rfl
    | some o => exact absurd (byte_of_ofByte ho) (h o)

/-! ### A frame with an illegal `op` -/

theorem decode_of_ofByte_none {f : CommandFrame} (h : Opcode.ofByte f.op = none) :
    decode f = .error (.illegalCommand f.op) := by
  simp only [decode, h]

/-- The frame of an error response is its code: all other bits are zero (60_exceptions.md R204). -/
theorem pack_error_illegalCommand : (Response.error .illegalCommand).pack = 0xFF := by decide

theorem step_of_ofByte_none {f : CommandFrame} (h : Opcode.ofByte f.op = none)
    (cs : List CommandFrame) (rs : List ResponseFrame) :
    step ⟨f :: cs, rs⟩ = .next ⟨cs, rs ++ [0xFF]⟩ := by
  obtain ⟨i, hi, -⟩ | ⟨-, hstep⟩ := step_cons f cs rs
  · cases (decode_of_ofByte_none h).symm.trans hi
  · rw [hstep, ← pack_error_illegalCommand]
    rfl

/-- Settles O4, by what the opcode map makes of the `op` field. -/
theorem decoderIsTotalOnOpAlone : Obligations.DecoderIsTotalOnOpAlone := by
  intro f
  cases ho : Opcode.ofByte f.op with
  | some o =>
    have hop := byte_of_ofByte ho
    exact .inl ⟨o, hop, decode_of_op hop, read_opcode o f⟩
  | none =>
    exact .inr ⟨(ofByte_eq_none_iff _).1 ho, decode_of_ofByte_none ho, step_of_ofByte_none ho⟩

/-- Settles O5: the table as a list, and the count by going through the 256 bytes. -/
theorem illegalOpcodesAreTheOther225 : Obligations.IllegalOpcodesAreTheOther225 :=
  ⟨eq_byte_iff_mem, by decide +kernel, rfl, rfl, fun _ cs rs h => step_of_ofByte_none h cs rs⟩

/-- Settles O10, by running the decoder on each written frame. -/
theorem writtenFramesDecode : Obligations.WrittenFramesDecode :=
  ⟨rfl, rfl, rfl, rfl, rfl, rfl, rfl, rfl, rfl, rfl⟩

end Sys2Proof.Proofs
end

section
/-! Encoding and decoding are inverse on well-formed commands, and the decoder reads what a format
names and nothing more (spec 30_encoding.md R60, R63, R71; 20_memory.md R40, R41). -/

namespace Sys2Proof.Proofs

open Sys2Proof.Machine Sys2Proof.Laws

/-! ### The fields of an encoded command -/

@[simp] theorem encode_op (i : Instr) : (encode i).op = i.opcode.byte := ofFields_op _ _ _ _ _
@[simp] theorem encode_len (i : Instr) : (encode i).len = i.fields.1 := ofFields_len _ _ _ _ _
@[simp] theorem encode_slotA (i : Instr) : (encode i).slotA = i.fields.2.1 :=
  ofFields_slotA _ _ _ _ _
@[simp] theorem encode_slotB (i : Instr) : (encode i).slotB = i.fields.2.2.1 :=
  ofFields_slotB _ _ _ _ _
@[simp] theorem encode_slotC (i : Instr) : (encode i).slotC = i.fields.2.2.2 :=
  ofFields_slotC _ _ _ _ _

/-- A U256 is read from a slot as a Uint field is: its low 256 bits (R64, R65). -/
theorem u256Of_eq_uintOf (x : Slot) : u256Of x = uintOf x := rfl

theorem sequenceFits_iff (len : Byte) (bytes : List Byte) :
    sequenceFits len bytes = true ↔ bytes.length = seqLength len := beq_iff_eq

theorem seqLength_of_le {len : Byte} (h : len.toNat ≤ 48) : seqLength len = len.toNat := if_pos h

theorem seqLength_of_gt {len : Byte} (h : ¬ len.toNat ≤ 48) : seqLength len = 0 := if_neg h

/-- A sequence whose image stands in slot `A` beside its length is read back from the lanes; one
that is too long for the lanes is empty on both sides (R71, log entry 12). -/
theorem sequence_of_slotImage {f : CommandFrame} {bytes : List Byte}
    (hA : f.slotA = slotImage bytes) (hfits : sequenceFits f.len bytes = true) :
    f.sequence = bytes := by
  rw [sequenceFits_iff] at hfits
  unfold CommandFrame.sequence
  split
  · next hle =>
    rw [seqLength_of_le hle] at hfits
    rw [hA, ← hfits, bytesOf_slotImage (hfits ▸ hle)]
  · next hgt =>
    rw [seqLength_of_gt hgt] at hfits
    exact (List.eq_nil_of_length_eq_zero hfits).symm

/-- The operand of format S in the frame of its command. -/
theorem sequence_encode {i : Instr} {bytes : List Byte} (hA : i.fields.2.1 = slotImage bytes)
    (hfits : sequenceFits i.fields.1 bytes = true) : (encode i).sequence = bytes :=
  sequence_of_slotImage (by rw [encode_slotA, hA]) (by rwa [encode_len])

/-- The operand of formats S32 and S20 in the frame of its command. -/
theorem bytesOf_encode {i : Instr} {bytes : List Byte} {n : Nat} (hn : n ≤ 48)
    (hA : i.fields.2.1 = slotImage bytes) (hlength : bytes.length = n) :
    bytesOf (encode i).slotA n = bytes := by
  subst hlength
  rw [encode_slotA, hA, bytesOf_slotImage hn]

/-- Reading the fields of an encoded command by its own format gives the command back, operand by
operand: widened fields, sequences beside their length, sequences of a fixed length, whole slots. -/
theorem read_encode {i : Instr} (hwf : i.wellFormed = true) : i.opcode.read (encode i) = i := by
  cases i with
  | divmod128 | divmod192 | umin | umax | ceil32 | bitlen | u256FromUint | taylor
  | u256Add | u256Addc | u256Sub | u256Mul | u256Le | u256Min | u256Max | u256Eq | u256ToUint
  | u256ToBe32 | u256ToLe32 | u256ToBe20 =>
    simp only [Opcode.read, Instr.opcode, Instr.fields, encode_slotA, encode_slotB, encode_slotC,
      u256Of_eq_uintOf, uintOf_wide]
  | uintFromBe | u64FromBe | u256FromBe | u384FromBe =>
    simp only [Opcode.read, Instr.opcode, encode_len, Instr.fields]
    congr 1
    exact sequence_encode rfl hwf
  | u256FromBe32 | u256FromLe32 | u256FromBe20 =>
    simp only [Opcode.read, Instr.opcode]
    congr 1
    exact bytesOf_encode (by decide) rfl (beq_iff_eq.1 hwf)
  | u384Iszero | u384Isone | u384ToBe | u384Eq =>
    simp only [Opcode.read, Instr.opcode, Instr.fields, encode_len, encode_slotA, encode_slotB,
      u384Of]

/-- Settles O8: the `op` field selects the operation, whose format reads the operands back. -/
theorem encodeThenDecodeGivesCommandBack : Obligations.EncodeThenDecodeGivesCommandBack := by
  intro i hwf
  calc decode (encode i) = .ok (i.opcode.read (encode i)) := decode_of_op (encode_op i)
    _ = .ok i := by rw [read_encode hwf]

/-! ### Decoded commands -/

theorem sequence_fits (f : CommandFrame) : sequenceFits f.len f.sequence = true := by
  rw [sequenceFits_iff]
  unfold CommandFrame.sequence
  split
  · next hle => rw [bytesOf_length, seqLength_of_le hle]
  · next hgt => rw [List.length_nil, seqLength_of_gt hgt]

/-- A format reads as many lanes as it announces; only the formats of sequences say anything. -/
theorem read_wellFormed (o : Opcode) (f : CommandFrame) : (o.read f).wellFormed = true := by
  cases o with
  | uintFromBe | u64FromBe | u256FromBe | u384FromBe => exact sequence_fits f
  | u256FromBe32 | u256FromLe32 | u256FromBe20 => exact beq_iff_eq.2 (bytesOf_length _ _)
  | _ => rfl

/-- Settles O9: a decoded command is what its operation reads. -/
theorem decodedCommandsAreWellFormed : Obligations.DecodedCommandsAreWellFormed := by
  intro f i hi
  obtain ⟨o, -, rfl⟩ := decode_ok hi
  exact read_wellFormed o f

/-! ### Bits that no operand stands in -/

theorem bytesOf_congr {x y : Slot} {n : Nat} (h : ∀ k < n, laneOf x k = laneOf y k) :
    bytesOf x n = bytesOf y n :=
  List.map_congr_left fun k hk => h k (List.mem_range.1 hk)

theorem sequence_congr {f g : CommandFrame} (hlen : f.len = g.len)
    (hlanes : f.len.toNat ≤ 48 → ∀ k < f.len.toNat, laneOf f.slotA k = laneOf g.slotA k) :
    f.sequence = g.sequence := by
  unfold CommandFrame.sequence
  rw [← hlen]
  split
  · next hle => exact bytesOf_congr (hlanes hle)
  · rfl

/-- Frames that agree on what a format names hold the same command of each of its operations. -/
theorem read_congr {o : Opcode} {f g : CommandFrame} (h : o.format.Agree f g) :
    o.read f = o.read g := by
  cases o with
  | ceil32 | bitlen | u256FromUint | u256ToBe32 | u256ToLe32 | u256ToBe20 | u256ToUint =>
    have ha : uintOf f.slotA = uintOf g.slotA := h
    simp only [Opcode.read, u256Of_eq_uintOf, ha]
  | divmod128 | divmod192 | umin | umax
  | u256Add | u256Addc | u256Sub | u256Mul | u256Le | u256Min | u256Max | u256Eq =>
    obtain ⟨ha, hb⟩ := h
    simp only [Opcode.read, u256Of_eq_uintOf, ha, hb]
  | taylor =>
    obtain ⟨ha, hb, hc⟩ := h
    simp only [Opcode.read, ha, hb, hc]
  | u384Iszero | u384Isone =>
    have ha : f.slotA = g.slotA := h
    simp only [Opcode.read, ha]
  | u384Eq =>
    obtain ⟨ha, hb⟩ := h
    simp only [Opcode.read, ha, hb]
  | u384ToBe =>
    obtain ⟨ha, hlen⟩ := h
    simp only [Opcode.read, ha, hlen]
  | uintFromBe | u64FromBe | u256FromBe | u384FromBe =>
    obtain ⟨hlen, hlanes⟩ := h
    simp only [Opcode.read, hlen, sequence_congr hlen hlanes]
  | u256FromBe32 | u256FromLe32 | u256FromBe20 =>
    simp only [Opcode.read, bytesOf_congr h]

/-- Settles O11: with a legal `op` both frames hold one command, with an illegal one both are
refused. -/
theorem unreadBitsAreIgnored : Obligations.UnreadBitsAreIgnored := by
  intro f g cs rs hop hagree
  cases ho : Opcode.ofByte f.op with
  | some o =>
    have hf := byte_of_ofByte ho
    have hread := read_congr (hagree o hf)
    rw [step_of_decode_ok (decode_of_op hf), step_of_decode_ok (decode_of_op (hop ▸ hf)), hread]
  | none => rw [step_of_ofByte_none ho, step_of_ofByte_none (hop ▸ ho)]

end Sys2Proof.Proofs
end

section
/-! What a command can answer: every response is that of an error kind, or reports success with
results in the range of the operation (spec 30_encoding.md R62, R64, R65; 60_exceptions.md R200,
R204, R210). The invariant on responses and the types of the results follow. -/

namespace Sys2Proof.Proofs

open Sys2Proof.Machine Sys2Proof.Laws

set_option exponentiation.threshold 2000

/-! ### Bounds of the results -/

/-- The narrowing to a slot never makes a number greater. -/
theorem zext384_lt {v bound : Nat} (h : v < bound) : (zext384 v).toNat < bound := by
  rw [zext384, BitVec.toNat_ofNat]
  exact lt_of_le_of_lt (Nat.mod_le _ _) h

theorem truth_lt (b : Bool) : (truth b).toNat < 2 := by cases b <;> decide

theorem slotImage_lt {s : List Byte} {n : Nat} (h : s.length = n) :
    (slotImage s).toNat < 256 ^ n := by
  subst h
  exact zext384_lt (le_lt s)

theorem be_lt_of_length_le {s : List Byte} {n : Nat} (h : s.length ≤ n) : be s < 256 ^ n :=
  (be_lt s).trans_le (Nat.pow_le_pow_right (by decide) h)

/-- The sequence of a well-formed operand of format S is as long as `len` says (R71). -/
theorem be_lt_of_sequenceFits {len : Byte} {bytes : List Byte} {limit : Nat}
    (hfits : sequenceFits len bytes = true) (hlimit : limit ≤ 48) (hlen : len.toNat ≤ limit) :
    be bytes < 256 ^ limit := by
  rw [sequenceFits_iff, seqLength_of_le (hlen.trans hlimit)] at hfits
  exact be_lt_of_length_le (hfits.trans_le hlen)

theorem domain_of_not_or {a b : UintField} (h : ¬ (outOfDomain a || outOfDomain b) = true) :
    a.toNat < 2 ^ 252 ∧ b.toNat < 2 ^ 252 := by
  simpa only [Bool.or_eq_true, not_or, outOfDomain_iff, Nat.not_le] using h

theorem carryOut_lt (a b : U256) : carryOut a b < 2 := by
  have := a.isLt
  have := b.isLt
  unfold carryOut
  omega

/-- The two parts of an address make the number of its 20 bytes (43_u256_codec.md R134). -/
theorem be_split20 {bytes : List Byte} (h : bytes.length = 20) :
    be (bytes.take 4) * 2 ^ 128 + be (bytes.drop 4) = be bytes := by
  have hdrop : (bytes.drop 4).length = 16 := by rw [List.length_drop, h]
  calc be (bytes.take 4) * 2 ^ 128 + be (bytes.drop 4)
      = be (bytes.take 4) * 256 ^ (bytes.drop 4).length + be (bytes.drop 4) := by rw [hdrop]; rfl
    _ = be bytes := by rw [← be_append, List.take_append_drop]

/-! ### The answers to a command -/

/-- The values that the first result of a command stays below. -/
def firstBound : Instr → Nat
  | .divmod128 _ _ | .taylor _ _ _ => 2 ^ 128
  | .divmod192 _ _ => 2 ^ 192
  | .umin _ _ | .umax _ _ | .ceil32 _ | .u256FromUint _ | .u256ToUint _ => 2 ^ 252
  | .bitlen _ => 253
  | .uintFromBe _ _ => 256 ^ 31
  | .u64FromBe _ _ => 256 ^ 8
  | .u256FromBe20 _ | .u256ToBe20 _ => 256 ^ 20
  | .u256FromBe32 _ | .u256ToBe32 _ | .u256FromLe32 _ | .u256ToLe32 _ | .u256FromBe _ _ => 256 ^ 32
  | .u256Add _ _ | .u256Addc _ _ | .u256Sub _ _ | .u256Mul _ _ | .u256Min _ _ | .u256Max _ _ =>
    2 ^ 256
  | .u256Le _ _ | .u256Eq _ _ | .u384Iszero _ | .u384Isone _ | .u384Eq _ _ => 2
  | .u384FromBe _ _ => 256 ^ 48
  | .u384ToBe _ len => 256 ^ len.toNat

/-- The values that the second result stays below: a remainder, a carry, or nothing but zero. -/
def secondBound : Instr → Nat
  | .divmod128 _ _ => 2 ^ 128
  | .divmod192 _ _ => 2 ^ 192
  | .u256Addc _ _ => 2
  | _ => 1

/-- The number of bytes an encoder returns, zero for every other operation (R61). -/
def byteCount : Instr → Byte
  | .u256ToBe32 _ | .u256ToLe32 _ => 32
  | .u256ToBe20 _ => 20
  | .u384ToBe _ len => len
  | _ => 0

/-- A successful answer to a command. -/
structure Succeeds (i : Instr) (r : Response) : Prop where
  status : r.status = 0x00
  rlen : r.rlen = byteCount i
  rlen_le : r.rlen.toNat ≤ 48
  r0_lt : r.r0.toNat < firstBound i
  r1_lt : r.r1.toNat < secondBound i

/-- An answer to a command: the code of an error kind alone, or success (60_exceptions.md R204). -/
def AnswerOf (i : Instr) (r : Response) : Prop :=
  (∃ k : ErrorKind, r = ⟨k.code, 0, 0, 0⟩) ∨ Succeeds i r

/-- From every state a meaning returns one response, an answer to `i`. -/
def Answers (i : Instr) (m : State → Host.Outcome State Fault Refusal) : Prop :=
  ∀ s, ∃ r, AnswerOf i r ∧ m s = .next (s.reply r)

namespace Answers

variable {i : Instr}

protected theorem raise (k : ErrorKind) : Answers i (raise k) :=
  fun s => ⟨_, .inl ⟨k, rfl⟩, raise_eq k s⟩

/-- A check on the operands holds in the one branch and fails in the other. -/
protected theorem ite {m n : State → Host.Outcome State Fault Refusal} {p : Prop} [Decidable p]
    (hm : p → Answers i m) (hn : ¬ p → Answers i n) : Answers i fun s => if p then m s else n s := by
  by_cases h : p
  · simpa only [if_pos h] using hm h
  · simpa only [if_neg h] using hn h

/-- The end of a command that returns two results. -/
protected theorem complete {r0 r1 : Slot} {rlen : Byte} (hlen : rlen = byteCount i)
    (hle : rlen.toNat ≤ 48) (h0 : r0.toNat < firstBound i) (h1 : r1.toNat < secondBound i) :
    Answers i fun s => complete s r0 r1 rlen :=
  fun s => ⟨_, .inr ⟨rfl, hlen, hle, h0, h1⟩, complete_eq s r0 r1 rlen⟩

/-- The end of a command whose only result is a number or a truth value. -/
protected theorem number {r0 : Slot} (hlen : byteCount i = 0) (hone : secondBound i = 1)
    (h0 : r0.toNat < firstBound i) : Answers i fun s => complete s r0 :=
  .complete hlen.symm (by decide) h0 (by rw [hone]; decide)

/-- The end of an encoder, whose only result is `n` bytes in the lanes of a slot. -/
protected theorem bytes {s : List Byte} {rlen : Byte} {n : Nat} (hlen : rlen = byteCount i)
    (hn : n ≤ 48) (hrlen : rlen.toNat = n) (hlength : s.length = n) (hfirst : firstBound i = 256 ^ n)
    (hone : secondBound i = 1) : Answers i fun st => complete st (slotImage s) (rlen := rlen) :=
  .complete hlen (hrlen.trans_le hn) (hfirst ▸ slotImage_lt hlength) (by rw [hone]; decide)

end Answers

/-! ### The operations that meanings share -/

section
variable {i : Instr}

theorem decodeBe_answers {limit : Nat} {len : Byte} {bytes : List Byte} (hlen : byteCount i = 0)
    (hone : secondBound i = 1) (hfirst : firstBound i = 256 ^ limit) (hlimit : limit ≤ 48)
    (hfits : sequenceFits len bytes = true) : Answers i (decodeBe limit len bytes) :=
  .ite (fun _ => .raise _) fun h => .number hlen hone <| zext384_lt <|
    hfirst ▸ be_lt_of_sequenceFits hfits hlimit (Nat.le_of_not_lt h)

/-- The remainder stays below the divisor, which stays within the bound (40_divmod.md R103). -/
theorem divmodCommand_answers {m : Nat} {value div : UintField} (hlen : byteCount i = 0)
    (hfirst : firstBound i = m) (hsecond : secondBound i = m) :
    Answers i (divmodCommand m value div) := by
  unfold divmodCommand
  cases hdiv : divmod m value.toNat div.toNat with
  | error k => exact .raise k
  | ok qr =>
    obtain ⟨hpos, hle, -, -, hr, hq⟩ := divmod_ok hdiv
    have hrem : qr.2 < m := hr ▸ (Nat.mod_lt _ hpos).trans_le hle
    exact .complete hlen.symm (by decide) (hfirst ▸ zext384_lt hq) (hsecond ▸ zext384_lt hrem)

theorem taylorClose_answers {output denominator : Nat} (hlen : byteCount i = 0)
    (hone : secondBound i = 1) (hfirst : firstBound i = 2 ^ 128) :
    Answers i (taylorClose output denominator) := by
  unfold taylorClose
  cases hdiv : divmod Config.BOUND128 output denominator with
  | error k => exact .raise k
  | ok qr =>
    obtain ⟨-, -, -, -, -, hq⟩ := divmod_ok hdiv
    exact .number hlen hone (hfirst ▸ zext384_lt hq)

end

/-- Any way the loop ends, the result passes the closing division (46_taylor.md R190). -/
theorem execTaylor_answers (factor numerator denominator : UintField) :
    Answers (.taylor factor numerator denominator) (execTaylor factor numerator denominator) := by
  refine .ite (fun _ => .raise _) fun _ => .ite (fun _ => .raise _) fun hover => ?_
  have hanswers := series_run_answers factor.toNat numerator.toNat denominator.toNat
    (Nat.lt_of_not_le hover)
  cases hrun : Series.run numerator.toNat denominator.toNat
      (Series.fuel numerator.toNat denominator.toNat)
      (Series.start factor.toNat denominator.toNat) with
  | none => exact absurd hrun hanswers
  | some result =>
    cases result with
    | error k => exact .raise k
    | ok output => exact taylorClose_answers rfl rfl rfl

/-- Every well-formed command is answered with an error kind, or with success in its ranges. -/
theorem exec_answers {i : Instr} (hwf : i.wellFormed = true) : Answers i (exec i) := by
  cases i with
  | divmod128 | divmod192 => exact divmodCommand_answers rfl rfl rfl
  | umin a b | umax a b =>
    refine .ite (fun _ => .raise _) fun hdomain => ?_
    obtain ⟨ha, hb⟩ := domain_of_not_or hdomain
    exact .ite (fun _ => .number rfl rfl (zext384_lt ha)) fun _ => .number rfl rfl (zext384_lt hb)
  | ceil32 value =>
    exact .ite (fun _ => .raise _) fun _ => .ite (fun _ => .raise _) fun h =>
      .number rfl rfl (zext384_lt (Nat.lt_of_not_le h))
  | bitlen value =>
    exact .ite (fun _ => .raise _) fun h =>
      .number rfl rfl (zext384_lt (Nat.lt_succ_of_le (Nat.le_of_not_lt h)))
  | uintFromBe | u64FromBe | u256FromBe | u384FromBe =>
    exact decodeBe_answers rfl rfl rfl (by decide) hwf
  | u256FromBe32 bytes =>
    exact .number rfl rfl (zext384_lt (be_lt_of_length_le (beq_iff_eq.1 hwf).le))
  | u256FromLe32 bytes =>
    have hlength : bytes.length = 32 := beq_iff_eq.1 hwf
    have hlt : le bytes < 256 ^ 32 := hlength ▸ le_lt bytes
    exact .number rfl rfl (zext384_lt hlt)
  | u256FromBe20 bytes =>
    have hlength : bytes.length = 20 := beq_iff_eq.1 hwf
    have hlt : be (bytes.take 4) * 2 ^ 128 + be (bytes.drop 4) < 256 ^ 20 :=
      be_split20 hlength ▸ be_lt_of_length_le hlength.le
    exact .number rfl rfl (zext384_lt hlt)
  | u256ToBe32 m => exact .bytes rfl (by decide) rfl (beBytes_length _ 32) rfl rfl
  | u256ToLe32 m => exact .bytes rfl (by decide) rfl (leBytes_length _ 32) rfl rfl
  | u256ToBe20 m =>
    exact .ite (fun _ => .raise _) fun _ =>
      .bytes rfl (by decide) rfl (beBytes_length _ 20) rfl rfl
  | u384ToBe x len =>
    exact .ite (fun _ => .raise _) fun hlen => .ite (fun _ => .raise _) fun _ =>
      .bytes rfl (Nat.le_of_not_lt hlen) rfl (beBytes_length _ _) rfl rfl
  | u256Add a b =>
    refine .ite (fun _ => .raise _) fun h => .number rfl rfl (zext384_lt ?_)
    exact Nat.lt_of_not_le (of_decide_eq_false (Bool.eq_false_of_not_eq_true h))
  | u256Addc a b =>
    exact .complete rfl (by decide) (zext384_lt (Nat.mod_lt _ (by decide)))
      (zext384_lt (carryOut_lt a b))
  | u256Sub a b =>
    exact .ite (fun _ => .raise _) fun _ =>
      .number rfl rfl (zext384_lt ((Nat.sub_le _ _).trans_lt a.isLt))
  | u256Mul a b =>
    refine .ite (fun _ => .raise _) fun h => .number rfl rfl (zext384_lt ?_)
    exact Nat.lt_of_not_le (of_decide_eq_false (Bool.eq_false_of_not_eq_true h))
  | u256Min a b | u256Max a b =>
    exact .ite (fun _ => .number rfl rfl (zext384_lt a.isLt)) fun _ =>
      .number rfl rfl (zext384_lt b.isLt)
  | u256Le | u256Eq | u384Iszero | u384Isone | u384Eq => exact .number rfl rfl (truth_lt _)
  | u256FromUint v =>
    refine .ite (fun _ => .raise _) fun h => .number rfl rfl (zext384_lt ?_)
    exact (outOfDomain_false_iff v).1 (Bool.eq_false_of_not_eq_true h)
  | u256ToUint m =>
    exact .ite (fun _ => .raise _) fun h => .number rfl rfl (zext384_lt (Nat.lt_of_not_le h))
  | taylor factor numerator denominator => exact execTaylor_answers factor numerator denominator

/-- The one response by which a command goes on is an answer to it. -/
theorem answerOf_of_exec {i : Instr} {s : State} {r : Response} (hwf : i.wellFormed = true)
    (h : exec i s = .next (s.reply r)) : AnswerOf i r := by
  obtain ⟨r', hanswer, hexec⟩ := exec_answers hwf s
  have hstate : s.reply r' = s.reply r := Host.Outcome.next.inj (hexec.symm.trans h)
  exact reply_inj hstate ▸ hanswer

/-! ### The types of the results -/

theorem firstBound_le_u256 {i : Instr} (h : i.opcode ∉ [Opcode.u384FromBe, Opcode.u384ToBe]) :
    firstBound i ≤ 2 ^ 256 := by
  cases i with
  | u384FromBe | u384ToBe => simp [Instr.opcode] at h
  | _ => norm_num [firstBound]

/-- The operations whose results are Uints. -/
theorem bounds_le_uint {i : Instr}
    (h : i.opcode ∈ [Opcode.divmod128, Opcode.divmod192, Opcode.umin, Opcode.umax, Opcode.ceil32,
      Opcode.uintFromBe, Opcode.u256ToUint, Opcode.taylor]) :
    firstBound i ≤ 2 ^ 252 ∧ secondBound i ≤ 2 ^ 252 := by
  cases i with
  | divmod128 | divmod192 | umin | umax | ceil32 | uintFromBe | u256ToUint | taylor =>
    norm_num [firstBound, secondBound]
  | _ => simp [Instr.opcode] at h

/-- Settles O21: an error leaves zeros, a success stays in the ranges of its operation. -/
theorem resultsStayInTheirType : Obligations.ResultsStayInTheirType := by
  intro i s r hwf hexec
  obtain ⟨k, rfl⟩ | hok := answerOf_of_exec hwf hexec
  · exact ⟨fun _ => Nat.two_pow_pos 256, fun _ => ⟨Nat.two_pow_pos 252, Nat.two_pow_pos 252⟩⟩
  · refine ⟨fun h => hok.r0_lt.trans_le (firstBound_le_u256 h), fun h => ?_⟩
    obtain ⟨hfirst, hsecond⟩ := bounds_le_uint h
    exact ⟨hok.r0_lt.trans_le hfirst, hok.r1_lt.trans_le hsecond⟩

/-! ### The invariant on responses -/

theorem legal_error (k : ErrorKind) : Response.Legal ⟨k.code, 0, 0, 0⟩ := by
  unfold Response.Legal
  cases k <;> decide

theorem secondBound_le (i : Instr) : secondBound i ≤ 2 ^ 192 := by
  unfold secondBound
  split <;> norm_num

/-- An encoder's result fills no lane above the bytes it returns. -/
theorem firstBound_of_byteCount {i : Instr} (h : byteCount i ≠ 0) :
    firstBound i = 256 ^ (byteCount i).toNat := by
  cases i with
  | u256ToBe32 | u256ToLe32 | u256ToBe20 | u384ToBe => rfl
  | _ => exact absurd rfl h

theorem Succeeds.legal {i : Instr} {r : Response} (h : Succeeds i r) : r.Legal := by
  refine ⟨.inl h.status, fun hne => absurd h.status hne, h.rlen_le, fun hlen => ?_,
    h.r1_lt.trans_le (secondBound_le i)⟩
  have hcount : byteCount i ≠ 0 := h.rlen ▸ hlen
  calc r.r0.toNat < firstBound i := h.r0_lt
    _ = 256 ^ r.rlen.toNat := by rw [firstBound_of_byteCount hcount, h.rlen]

theorem AnswerOf.legal {i : Instr} {r : Response} (h : AnswerOf i r) : r.Legal := by
  obtain ⟨k, rfl⟩ | hok := h
  · exact legal_error k
  · exact hok.legal

/-- A step on a waiting command answers it with one legal response. -/
theorem step_replies_legal (f : CommandFrame) (cs : List CommandFrame) (rs : List ResponseFrame) :
    ∃ r : Response, r.Legal ∧ step ⟨f :: cs, rs⟩ = .next (State.reply ⟨cs, rs⟩ r) := by
  obtain ⟨i, hi, hstep⟩ | ⟨-, hstep⟩ := step_cons f cs rs
  · obtain ⟨r, hanswer, hexec⟩ := exec_answers (decodedCommandsAreWellFormed f i hi) ⟨cs, rs⟩
    exact ⟨r, hanswer.legal, hstep.trans hexec⟩
  · exact ⟨_, legal_error .illegalCommand, hstep.trans (raise_eq _ _)⟩

theorem responsesLegal_reply {s : State} {r : Response} (hs : s.ResponsesLegal) (hr : r.Legal) :
    (s.reply r).ResponsesLegal := by
  intro f hf
  rw [reply_responses, List.mem_append, List.mem_singleton] at hf
  obtain hold | rfl := hf
  · exact hs f hold
  · rwa [unpack_pack]

/-- Settles O12: a step changes nothing, or puts one legal response behind those that stand. -/
theorem everyStepKeepsResponsesLegal : Obligations.EveryStepKeepsResponsesLegal := by
  rintro ⟨cs, rs⟩ t hs hstep
  cases cs with
  | nil =>
    obtain rfl : State.mk [] rs = t := Host.Outcome.next.inj ((step_idle rs).symm.trans hstep)
    exact hs
  | cons f cs =>
    obtain ⟨r, hr, hreply⟩ := step_replies_legal f cs rs
    obtain rfl : State.reply ⟨cs, rs⟩ r = t := Host.Outcome.next.inj (hreply.symm.trans hstep)
    exact responsesLegal_reply hs hr

/-! ### The decoder of any length beside those of a fixed length -/

theorem exec_u256FromBe_of_le {len : Byte} (h : len.toNat ≤ 32) (bytes : List Byte) (s : State) :
    exec (.u256FromBe len bytes) s = complete s (zext384 (be bytes)) :=
  if_neg (Nat.not_lt.2 h)

/-- Settles O37: the length passes its check, and the parts of an address make its number. -/
theorem variableDecoderAgreesWithFixedOnes : Obligations.VariableDecoderAgreesWithFixedOnes := by
  refine ⟨fun bytes s _ => exec_u256FromBe_of_le (by decide) bytes s, fun bytes s hlength => ?_,
    fun o p h => byte_injective h⟩
  calc exec (.u256FromBe 20 bytes) s
      = complete s (zext384 (be bytes)) := exec_u256FromBe_of_le (by decide) bytes s
    _ = exec (.u256FromBe20 bytes) s := by rw [← be_split20 hlength]; rfl

end Sys2Proof.Proofs
end

section
/-! The host: the sources of a frame, a program that stops at the first error, and one transaction
on an idle block (spec 30_encoding.md R75, R77; 70_reset_and_hazards.md R239; log entries 13, 16). -/

namespace Sys2Proof.Proofs

open Sys2Proof.Machine Sys2Proof.Laws

/-! ### The sources of a frame -/

section
variable {done : List Response} {k : Nat} (h : k < done.length)
include h

theorem slot_fetch_r0 : (SlotSource.r0 k).fetch done = some done[k].r0 := by
  simp [SlotSource.fetch, h]

theorem slot_fetch_r1 : (SlotSource.r1 k).fetch done = some done[k].r1 := by
  simp [SlotSource.fetch, h]

theorem slot_fetch_rlen : (SlotSource.rlen k).fetch done = some (done[k].rlen.setWidth 384) := by
  simp [SlotSource.fetch, h]

theorem len_fetch_r0 : (LenSource.r0 k).fetch done = some (lenField done[k].r0.toNat) := by
  simp [LenSource.fetch, h]

theorem len_fetch_r1 : (LenSource.r1 k).fetch done = some (lenField done[k].r1.toNat) := by
  simp [LenSource.fetch, h]

theorem len_fetch_rlen : (LenSource.rlen k).fetch done = some done[k].rlen := by
  simp [LenSource.fetch, h]

end

theorem lenField_of_le {n : Nat} (h : n ≤ 255) : lenField n = BitVec.ofNat 8 n := by
  rw [lenField, Nat.min_eq_left h]

/-- A frame is built from its sources when each has a value; `frame_some` says the converse. -/
theorem frame_of_fetch {c : HostCommand} {done : List Response} {len : Byte} {a b d : Slot}
    (hlen : c.len.fetch done = some len) (ha : c.a.fetch done = some a)
    (hb : c.b.fetch done = some b) (hd : c.c.fetch done = some d) :
    c.frame done = some (CommandFrame.ofFields c.op len a b d) := by
  simp only [HostCommand.frame, hlen, ha, hb, hd]

/-! ### Programs -/

section
variable {c : HostCommand} {done : List Response} {s : State}

theorem runHostProgram_badReference (q : List HostCommand) (hf : c.frame done = none) :
    runHostProgram (c :: q) done s = (.badReference, s) := by
  simp only [runHostProgram, hf]

theorem runHostProgram_noAnswer (q : List HostCommand) {f : CommandFrame}
    (hf : c.frame done = some f) (hr : transact f s = none) :
    runHostProgram (c :: q) done s = (.noAnswer, s) := by
  simp only [runHostProgram, hf, hr]

theorem runHostProgram_ok (q : List HostCommand) {f : CommandFrame} {r : Response} {t : State}
    (hf : c.frame done = some f) (hr : transact f s = some (r, t)) (hok : r.status = statusOk) :
    runHostProgram (c :: q) done s = runHostProgram q (done ++ [r]) t := by
  simp only [runHostProgram, hf, hr, if_pos hok]

theorem runHostProgram_error (q : List HostCommand) {f : CommandFrame} {r : Response} {t : State}
    (hf : c.frame done = some f) (hr : transact f s = some (r, t)) (herr : r.status ≠ statusOk) :
    runHostProgram (c :: q) done s = (.stopped r.status, t) := by
  simp only [runHostProgram, hf, hr, if_neg herr]

end

/-- The end of a program that is followed by `q`: only a finished one goes on to `q`. -/
def followedBy (q : List HostCommand) : HostOutcome × State → HostOutcome × State
  | (.finished results, t) => runHostProgram q results t
  | (.stopped status, t) => (.stopped status, t)
  | (.badReference, t) => (.badReference, t)
  | (.noAnswer, t) => (.noAnswer, t)

/-- Running two programs in a row, by induction on the first: its first command ends both, or leads
to the rest of it followed by `q`. -/
theorem runHostProgram_append (p q : List HostCommand) (done : List Response) (s : State) :
    runHostProgram (p ++ q) done s = followedBy q (runHostProgram p done s) := by
  induction p generalizing done s with
  | nil => rfl
  | cons c p ih =>
    rw [List.cons_append]
    cases hf : c.frame done with
    | none => rw [runHostProgram_badReference _ hf, runHostProgram_badReference _ hf, followedBy]
    | some f =>
      cases hr : transact f s with
      | none => rw [runHostProgram_noAnswer _ hf hr, runHostProgram_noAnswer _ hf hr, followedBy]
      | some rt =>
        obtain ⟨r, t⟩ := rt
        by_cases hok : r.status = statusOk
        · rw [runHostProgram_ok _ hf hr hok, runHostProgram_ok _ hf hr hok, ih]
        · rw [runHostProgram_error _ hf hr hok, runHostProgram_error _ hf hr hok, followedBy]

theorem followedBy_of_finished {q : List HostCommand} {e : HostOutcome × State}
    {results : List Response} (h : e.1 = .finished results) :
    followedBy q e = runHostProgram q results e.2 := by
  obtain ⟨_, t⟩ := e
  subst h
  rfl

theorem followedBy_of_stopped {q : List HostCommand} {e : HostOutcome × State} {status : Byte}
    (h : e.1 = .stopped status) : followedBy q e = e := by
  obtain ⟨_, t⟩ := e
  subst h
  rfl

/-- Settles O58: the sources one by one, a program by its first command, and two programs in a row
by `runHostProgram_append`. -/
theorem hostStopsAtFirstError : Obligations.HostStopsAtFirstError := by
  refine ⟨fun done v n => ⟨rfl, rfl, fun k h => ?_⟩, fun _ _ => rfl, ?_, ?_, ?_⟩
  · exact ⟨slot_fetch_r0 h, slot_fetch_r1 h, slot_fetch_rlen h, len_fetch_rlen h,
      fun hle => (len_fetch_r0 h).trans (by rw [lenField_of_le hle]),
      fun hle => (len_fetch_r1 h).trans (by rw [lenField_of_le hle])⟩
  · exact fun c q done s t f r hf hr =>
      ⟨runHostProgram_ok q hf hr, runHostProgram_error q hf hr⟩
  · intro p q done results s hfinished
    rw [runHostProgram_append, followedBy_of_finished hfinished]
  · intro p q done s status hstopped
    rw [runHostProgram_append, followedBy_of_stopped hstopped]

/-! ### One transaction on an idle block -/

theorem eq_of_idle {s : State} (h : s.Idle) : s = ⟨[], []⟩ := by
  obtain ⟨commands, responses⟩ := s
  obtain ⟨rfl, rfl⟩ := h
  rfl

/-- The host reads the one response that the step to its frame puts at the interface. -/
theorem transact_of_step {f : CommandFrame} {p : ResponseFrame}
    (h : step ⟨[f], []⟩ = .next ⟨[], [p]⟩) :
    transact f ⟨[], []⟩ = some (Response.unpack p, ⟨[], []⟩) := by
  have hissue : (State.mk [] []).issue f = ⟨[f], []⟩ := rfl
  simp only [transact, hissue, h, State.readResponse]

/-- U384_TO_BE checks its length before anything else (45_u384.md R173). -/
theorem exec_u384ToBe_of_long {len : Byte} (h : 48 < len.toNat) (x : U384) (s : State) :
    exec (.u384ToBe x len) s = .next (s.reply ⟨0x03, 0, 0, 0⟩) :=
  if_pos h

/-- A U384_TO_BE frame whose `len` field is above 48 is answered ValueError. -/
theorem transact_u384ToBe_of_long {len : Byte} (h : 48 < len.toNat) (a b d : Slot) :
    transact (CommandFrame.ofFields 0x63 len a b d) ⟨[], []⟩ =
      some (⟨0x03, 0, 0, 0⟩, ⟨[], []⟩) := by
  have hdecode := decode_of_op (o := .u384ToBe) (ofFields_op 0x63 len a b d)
  rw [Opcode.read, ofFields_len] at hdecode
  have hstep := (step_of_decode_ok hdecode [] []).trans (exec_u384ToBe_of_long h _ _)
  rw [transact_of_step hstep, unpack_pack]

/-- Settles O59: a step answers every frame with one response, and a length above 48 stays above 48
in the field that the host sends. -/
theorem hostIssuesItsFrameAndReadsTheAnswer : Obligations.HostIssuesItsFrameAndReadsTheAnswer := by
  refine ⟨fun c done len a b d => frame_of_fetch, fun f s hidle => ?_, ?_⟩
  · obtain rfl := eq_of_idle hidle
    obtain ⟨p, hp⟩ := step_appends_one_response f
    exact ⟨p, hp [] [], transact_of_step (hp [] [])⟩
  · intro c done f s k hk hidle hop hlen hlong hframe
    obtain rfl := eq_of_idle hidle
    obtain ⟨len, a, b, d, hfetch, -, -, -, rfl⟩ := frame_some hframe
    rw [hlen, len_fetch_r0 hk] at hfetch
    obtain rfl := Option.some.inj hfetch
    rw [hop]
    exact transact_u384ToBe_of_long ((lenField_long_iff (by decide) _).2 hlong) a b d

end Sys2Proof.Proofs
end

section
/-! The divmod units: the three checks in their order, and the equation of division for every answer
with status OK (spec 40_divmod.md R100 to R103). Both units are `divmodCommand`, so each fact is
proved once for any bound. -/

namespace Sys2Proof.Proofs

open Sys2Proof.Machine Sys2Proof.Laws

set_option exponentiation.threshold 2000

/-! ### The frame of a command with two 256-bit operands -/

/-- A command whose format reads the low 256 bits of slots `A` and `B_` (30_encoding.md R71). -/
theorem decode_of_read_two {f : CommandFrame} {o : Opcode} {c : BitVec 256 → BitVec 256 → Instr}
    (hop : f.op = o.byte) (hread : o.read f = c (uintOf f.slotA) (uintOf f.slotB)) :
    decode f = .ok (c (f.extractLsb' 16 256) (f.extractLsb' 400 256)) := by
  rw [decode_of_op hop, hread, uintOf_slotA, uintOf_slotB]

/-! ### The checks in order; `divmod_eq` is the case in which all three pass -/

section
variable {m value div : Nat}

theorem divmod_of_bad_divisor (h : div = 0 ∨ m < div) :
    divmod m value div = .error .divisionError :=
  if_pos h

theorem divmod_of_bad_value (hpos : 0 < div) (hle : div ≤ m) (hvalue : Config.B ≤ value) :
    divmod m value div = .error .valueError := by
  unfold divmod
  rw [if_neg (by omega), if_pos hvalue]

theorem divmod_of_large_quotient (hpos : 0 < div) (hle : div ≤ m) (hvalue : value < Config.B)
    (hquotient : m ≤ value / div) : divmod m value div = .error .divisionError := by
  unfold divmod
  rw [if_neg (by omega), if_neg (Nat.not_le.2 hvalue), if_pos hquotient]

end

/-! ### A divmod command -/

section
variable {m : Nat} {value div : UintField}

theorem divmodCommand_of_error {k : ErrorKind} (h : divmod m value.toNat div.toNat = .error k)
    (s : State) : divmodCommand m value div s = .next (s.reply ⟨k.code, 0, 0, 0⟩) := by
  simp only [divmodCommand, h, raise_eq]

theorem divmodCommand_of_ok {q r : Nat} (h : divmod m value.toNat div.toNat = .ok (q, r))
    (s : State) :
    divmodCommand m value div s = .next (s.reply ⟨0x00, 0, zext384 q, zext384 r⟩) := by
  simp only [divmodCommand, h, complete_eq]

end

/-- The four ways a divmod command ends: no two overlap, and no operands are left out (R100). -/
theorem divmodCommand_cases (m : Nat) (value div : UintField) (s : State) :
    (div.toNat = 0 ∨ m < div.toNat →
      divmodCommand m value div s = .next (s.reply ⟨0x01, 0, 0, 0⟩)) ∧
    (0 < div.toNat → div.toNat ≤ m → 2 ^ 252 ≤ value.toNat →
      divmodCommand m value div s = .next (s.reply ⟨0x03, 0, 0, 0⟩)) ∧
    (0 < div.toNat → div.toNat ≤ m → value.toNat < 2 ^ 252 → m ≤ value.toNat / div.toNat →
      divmodCommand m value div s = .next (s.reply ⟨0x01, 0, 0, 0⟩)) ∧
    (0 < div.toNat → div.toNat ≤ m → value.toNat < 2 ^ 252 → value.toNat / div.toNat < m →
      divmodCommand m value div s = .next (s.reply ⟨0x00, 0,
        BitVec.ofNat 384 (value.toNat / div.toNat), BitVec.ofNat 384 (value.toNat % div.toNat)⟩)) :=
  ⟨fun hdiv => divmodCommand_of_error (divmod_of_bad_divisor hdiv) s,
    fun hpos hle hvalue => divmodCommand_of_error (divmod_of_bad_value hpos hle hvalue) s,
    fun hpos hle hvalue hquotient =>
      divmodCommand_of_error (divmod_of_large_quotient hpos hle hvalue hquotient) s,
    fun hpos hle hvalue hquotient =>
      divmodCommand_of_ok (divmod_eq hpos hle hvalue hquotient) s⟩

theorem errorCode_ne_ok (k : ErrorKind) : k.code ≠ 0x00 := by cases k <;> decide

/-- An answer with status OK holds the quotient and the remainder: both are at most the dividend, so
the narrowing to a slot keeps them (R103). -/
theorem divmodCommand_exact {m : Nat} {value div : UintField} {s : State} {r : Response}
    (hok : r.status = 0x00) (hexec : divmodCommand m value div s = .next (s.reply r)) :
    value.toNat = r.r0.toNat * div.toNat + r.r1.toNat ∧ r.r1.toNat < div.toNat ∧
      r.r0.toNat < m := by
  cases hdiv : divmod m value.toNat div.toNat with
  | error k =>
    have hreply := Host.Outcome.next.inj ((divmodCommand_of_error hdiv s).symm.trans hexec)
    obtain rfl := reply_inj hreply
    exact absurd hok (errorCode_ne_ok k)
  | ok qr =>
    obtain ⟨q, rem⟩ := qr
    have hreply := Host.Outcome.next.inj ((divmodCommand_of_ok hdiv s).symm.trans hexec)
    obtain rfl := reply_inj hreply
    obtain ⟨hpos, -, hvalue, rfl, rfl, hquotient⟩ := divmod_ok hdiv
    have hfits : value.toNat < 2 ^ 384 := hvalue.trans (by decide)
    rw [zext384_toNat ((Nat.div_le_self _ _).trans_lt hfits),
      zext384_toNat ((Nat.mod_le _ _).trans_lt hfits)]
    exact ⟨(Nat.div_add_mod' _ _).symm, Nat.mod_lt _ hpos, hquotient⟩

/-! ### The two units -/

theorem exec_divmod128 (value div : UintField) (s : State) :
    exec (.divmod128 value div) s = divmodCommand (2 ^ 128) value div s := rfl

theorem exec_divmod192 (value div : UintField) (s : State) :
    exec (.divmod192 value div) s = divmodCommand (2 ^ 192) value div s := rfl

/-- Settles O22: the cases of a divmod command at the bound of DIVMOD128. -/
theorem divmod128Divides : Obligations.Divmod128Divides := by
  refine ⟨fun f hop => decode_of_read_two (o := .divmod128) hop rfl, fun value div s => ?_⟩
  rw [exec_divmod128]
  exact divmodCommand_cases (2 ^ 128) value div s

/-- Settles O23: the cases of a divmod command at the bound of DIVMOD192. -/
theorem divmod192Divides : Obligations.Divmod192Divides := by
  refine ⟨fun f hop => decode_of_read_two (o := .divmod192) hop rfl, fun value div s => ?_⟩
  rw [exec_divmod192]
  exact divmodCommand_cases (2 ^ 192) value div s

/-- Settles O24: the two units are one command at two bounds. -/
theorem divmodResultsAreExact : Obligations.DivmodResultsAreExact := by
  intro value div s r hok
  rw [exec_divmod128, exec_divmod192]
  exact ⟨divmodCommand_exact hok, divmodCommand_exact hok⟩

end Sys2Proof.Proofs
end

section
/-! The comparators over Uints: the domain check, and the two answers as the minimum and the maximum
of the operands (spec 41_comparators.md R110 to R112). -/

namespace Sys2Proof.Proofs

open Sys2Proof.Machine Sys2Proof.Laws

set_option exponentiation.threshold 2000

theorem exec_umin (a b : UintField) (s : State) : exec (.umin a b) s = execUmin a b s := rfl

theorem exec_umax (a b : UintField) (s : State) : exec (.umax a b) s = execUmax a b s := rfl

/-- The domain check of a command with two Uint operands (60_exceptions.md R209). -/
theorem either_outOfDomain_iff (a b : UintField) :
    (outOfDomain a || outOfDomain b) = true ↔ 2 ^ 252 ≤ a.toNat ∨ 2 ^ 252 ≤ b.toNat := by
  rw [Bool.or_eq_true, outOfDomain_iff, outOfDomain_iff]

/-! ### An operand outside the domain -/

section
variable {a b : UintField} (h : 2 ^ 252 ≤ a.toNat ∨ 2 ^ 252 ≤ b.toNat) (s : State)
include h

theorem exec_umin_of_outOfDomain : exec (.umin a b) s = .next (s.reply ⟨0x03, 0, 0, 0⟩) := by
  rw [exec_umin, execUmin, if_pos ((either_outOfDomain_iff a b).2 h)]
  exact raise_eq .valueError s

theorem exec_umax_of_outOfDomain : exec (.umax a b) s = .next (s.reply ⟨0x03, 0, 0, 0⟩) := by
  rw [exec_umax, execUmax, if_pos ((either_outOfDomain_iff a b).2 h)]
  exact raise_eq .valueError s

end

/-! ### Operands in the domain -/

section
variable {a b : UintField} (ha : a.toNat < 2 ^ 252) (hb : b.toNat < 2 ^ 252)
include ha hb

theorem not_either_outOfDomain : ¬(outOfDomain a || outOfDomain b) = true := by
  rw [either_outOfDomain_iff]
  omega

theorem exec_umin_of_inDomain (s : State) :
    exec (.umin a b) s = .next (s.reply ⟨0x00, 0, zext384 (min a.toNat b.toNat), 0⟩) := by
  rw [exec_umin, execUmin, if_neg (not_either_outOfDomain ha hb)]
  by_cases hle : a.toNat ≤ b.toNat
  · rw [if_pos hle, min_eq_left hle, complete_eq]
  · rw [if_neg hle, min_eq_right (Nat.le_of_not_le hle), complete_eq]

/-- The test of UMAX is `b <= a`, hence the order of the operands of `max` (R111). -/
theorem exec_umax_of_inDomain (s : State) :
    exec (.umax a b) s = .next (s.reply ⟨0x00, 0, zext384 (max b.toNat a.toNat), 0⟩) := by
  rw [exec_umax, execUmax, if_neg (not_either_outOfDomain ha hb)]
  by_cases hle : b.toNat ≤ a.toNat
  · rw [if_pos hle, max_eq_right hle, complete_eq]
  · rw [if_neg hle, max_eq_left (Nat.le_of_not_le hle), complete_eq]

end

/-! ### The two commands -/

/-- The narrowing to a slot keeps a Uint. -/
theorem zext384_toNat_of_inDomain {v : Nat} (h : v < 2 ^ 252) : (zext384 v).toNat = v :=
  zext384_toNat (h.trans (by decide))

/-- Settles O26: the answers are the minimum and the maximum, whose order and sum are Mathlib's. -/
theorem comparatorsAreMinAndMax : Obligations.ComparatorsAreMinAndMax := by
  intro a b s ha hb
  refine ⟨zext384 (min a.toNat b.toNat), zext384 (max b.toNat a.toNat),
    exec_umin_of_inDomain ha hb s, exec_umax_of_inDomain ha hb s, ?_⟩
  rw [zext384_toNat_of_inDomain (min_lt_of_left_lt ha), zext384_toNat_of_inDomain (max_lt hb ha),
    max_comm]
  exact ⟨min_choice _ _, max_choice _ _, min_le_max, min_add_max _ _⟩

/-- Settles O25: both frames have two Uint operands, and a selection by `<=` is `min` or `max`. -/
theorem comparatorsPickAnOperand : Obligations.ComparatorsPickAnOperand := by
  refine ⟨fun f hop => decode_of_read_two (o := .umin) hop rfl,
    fun f hop => decode_of_read_two (o := .umax) hop rfl, fun a b s => ⟨fun hout => ?_, ?_⟩⟩
  · exact ⟨exec_umin_of_outOfDomain hout s, exec_umax_of_outOfDomain hout s⟩
  · intro ha hb
    rw [← min_def a.toNat b.toNat, ← max_def b.toNat a.toNat]
    exact ⟨exec_umin_of_inDomain ha hb s, exec_umax_of_inDomain ha hb s⟩

end Sys2Proof.Proofs
end

section
/-! The Uint helpers: the next multiple of 32, the bit length as a leading-zero count, and the
bounded big-endian decoders (spec 42_uint_helpers.md R120 to R125; 43_u256_codec.md R136). -/

namespace Sys2Proof.Proofs

open Sys2Proof.Machine Sys2Proof.Laws

/-! ### The frames of commands with one operand -/

/-- A command whose format reads the low 256 bits of slot `A` (30_encoding.md R71). -/
theorem decode_of_read_one {f : CommandFrame} {o : Opcode} {c : BitVec 256 → Instr}
    (hop : f.op = o.byte) (hread : o.read f = c (uintOf f.slotA)) :
    decode f = .ok (c (f.extractLsb' 16 256)) := by
  rw [decode_of_op hop, hread, uintOf_slotA]

/-- A command of format S: `len`, and that many lanes of slot `A` (30_encoding.md R71). -/
theorem decode_of_read_sequence {f : CommandFrame} {o : Opcode} {c : Byte → List Byte → Instr}
    (hop : f.op = o.byte) (hread : o.read f = c f.len f.sequence) :
    decode f = .ok (c (f.extractLsb' 8 8)
      (if (f.extractLsb' 8 8).toNat ≤ 48 then
        (List.range (f.extractLsb' 8 8).toNat).map fun k => f.extractLsb' (16 + 8 * k) 8
      else [])) := by
  rw [decode_of_op hop, hread, sequence_eq]
  rfl

/-! ### CEIL32 -/

/-- `B` is a multiple of 32 itself, so exactly the values above the multiple before it round up to
`B` or more (R120). -/
theorem B_le_ceil32_iff (v : Nat) : Config.B ≤ ceil32 v ↔ 2 ^ 252 - 32 < v := by
  obtain ⟨hmultiple, hle, hlt⟩ := ceil32_spec v
  rw [B_eq]
  omega

theorem ceil32_lt_B {v : Nat} (h : v ≤ 2 ^ 252 - 32) : ceil32 v < Config.B :=
  Nat.lt_of_not_le fun hB => Nat.not_lt.2 h ((B_le_ceil32_iff v).1 hB)

theorem ceil32_le_of_multiple {v k : Nat} (hk : k % 32 = 0) (hv : v ≤ k) : ceil32 v ≤ k := by
  obtain ⟨hmultiple, -, hlt⟩ := ceil32_spec v
  omega

theorem exec_ceil32 (value : UintField) (s : State) :
    exec (.ceil32 value) s = execCeil32 value s := rfl

section
variable {value : UintField}

theorem exec_ceil32_of_outOfDomain (h : 2 ^ 252 ≤ value.toNat) (s : State) :
    exec (.ceil32 value) s = .next (s.reply ⟨0x03, 0, 0, 0⟩) := by
  rw [exec_ceil32, execCeil32, if_pos ((outOfDomain_iff value).2 h)]
  exact raise_eq .valueError s

theorem not_outOfDomain (h : value.toNat < 2 ^ 252) : ¬outOfDomain value = true :=
  ne_true_of_eq_false ((outOfDomain_false_iff value).2 h)

theorem exec_ceil32_of_overflow (hdomain : value.toNat < 2 ^ 252)
    (hlarge : 2 ^ 252 - 32 < value.toNat) (s : State) :
    exec (.ceil32 value) s = .next (s.reply ⟨0x02, 0, 0, 0⟩) := by
  rw [exec_ceil32, execCeil32, if_neg (not_outOfDomain hdomain),
    if_pos ((B_le_ceil32_iff _).2 hlarge)]
  exact raise_eq .overflowError s

theorem exec_ceil32_of_le (h : value.toNat ≤ 2 ^ 252 - 32) (s : State) :
    exec (.ceil32 value) s = .next (s.reply ⟨0x00, 0, zext384 (ceil32 value.toNat), 0⟩) := by
  rw [exec_ceil32, execCeil32, if_neg (not_outOfDomain (by omega)),
    if_neg (Nat.not_le.2 (ceil32_lt_B h))]
  exact complete_eq ..

end

/-- Settles O27: the two checks, and below them the slot keeps the rounded value. -/
theorem ceil32RoundsUp : Obligations.Ceil32RoundsUp := by
  refine ⟨fun f hop => decode_of_read_one (o := .ceil32) hop rfl, fun value s =>
    ⟨fun hout => exec_ceil32_of_outOfDomain hout s,
      fun hdomain hlarge => exec_ceil32_of_overflow hdomain hlarge s,
      fun hle => ⟨_, exec_ceil32_of_le hle s, ?_⟩⟩⟩
  rw [zext384_toNat_of_inDomain (ceil32_lt_B hle)]
  obtain ⟨hmultiple, hge, -⟩ := ceil32_spec value.toNat
  exact ⟨rfl, hmultiple, hge, fun k hk hv => ceil32_le_of_multiple hk hv⟩

/-! ### BITLEN -/

theorem exec_bitlen (value : UintField) (s : State) :
    exec (.bitlen value) s = execBitlen value s := rfl

theorem BLMAX_eq : Config.BLMAX = 252 := rfl

/-- BITLEN has no domain check; the bound on its result amounts to one (R121). -/
theorem BLMAX_lt_bitLength_iff (value : UintField) :
    Config.BLMAX < bitLength 256 value.toNat ↔ 2 ^ 252 ≤ value.toNat := by
  rw [← Nat.not_le, bitLength_le_iff value.isLt, Nat.not_lt]

theorem exec_bitlen_of_outOfRange {value : UintField} (h : 2 ^ 252 ≤ value.toNat) (s : State) :
    exec (.bitlen value) s = .next (s.reply ⟨0x04, 0, 0, 0⟩) := by
  rw [exec_bitlen, execBitlen, if_pos ((BLMAX_lt_bitLength_iff value).2 h)]
  exact raise_eq .outOfRangeError s

theorem exec_bitlen_of_lt {value : UintField} (h : value.toNat < 2 ^ 252) (s : State) :
    exec (.bitlen value) s =
      .next (s.reply ⟨0x00, 0, zext384 (bitLength 256 value.toNat), 0⟩) := by
  rw [exec_bitlen, execBitlen,
    if_neg fun hlong => Nat.not_le.2 h ((BLMAX_lt_bitLength_iff _).1 hlong)]
  exact complete_eq ..

/-- Settles O28: the number is the bit length, whose bounds are its defining property. -/
theorem bitlenCountsBits : Obligations.BitlenCountsBits := by
  refine ⟨fun f hop => decode_of_read_one (o := .bitlen) hop rfl, fun value s =>
    ⟨fun hout => exec_bitlen_of_outOfRange hout s, fun hlt =>
      ⟨bitLength 256 value.toNat, (bitLength_le_iff value.isLt).2 hlt,
        exec_bitlen_of_lt hlt s, fun hzero => ?_, fun hne => ?_⟩⟩⟩
  · exact Nat.le_zero.1 ((bitLength_le_iff value.isLt).2 (by omega))
  · obtain ⟨hupper, hlower⟩ := bitLength_spec value.isLt
    obtain ⟨hpos, hlower⟩ := hlower hne
    exact ⟨hpos, hlower, hupper⟩

/-- The scan of the model and the leading-zero count meet at the highest one bit (R124). -/
theorem bitLength_eq_sub_clz {w : Nat} (hw : 0 < w) (x : BitVec w) :
    bitLength w x.toNat = w - x.clz.toNat := by
  refine le_antisymm ((bitLength_le_iff x.isLt).2 BitVec.toNat_lt_two_pow_sub_clz)
    (Nat.le_of_not_lt fun hlt => ?_)
  have hne : x ≠ 0#w := by
    rintro rfl
    have hclz : (0#w).clz = (w : BitVec w) := BitVec.clz_eq_iff_eq_zero.2 rfl
    have hwidth : (0#w).clz.toNat = w := by
      rw [hclz, BitVec.natCast_eq_ofNat, BitVec.toNat_ofNat, Nat.mod_eq_of_lt Nat.lt_two_pow_self]
    omega
  have hupper : x.toNat < 2 ^ (w - 1 - x.clz.toNat) := (bitLength_le_iff x.isLt).1 (by omega)
  exact Nat.not_le.2 hupper (BitVec.two_pow_sub_clz_le_toNat_of_ne_zero hw hne)

theorem clz_lt_four_iff (value : UintField) : value.clz.toNat < 4 ↔ 2 ^ 252 ≤ value.toNat := by
  rw [← BLMAX_lt_bitLength_iff, bitLength_eq_sub_clz (by decide), BLMAX_eq]
  omega

/-- A word reaches a power of two exactly when one of its bits from that place on is set. -/
theorem two_pow_le_toNat_iff {w : Nat} (x : BitVec w) (n : Nat) :
    2 ^ n ≤ x.toNat ↔ ∃ j, n ≤ j ∧ j < w ∧ x.getLsbD j = true := by
  constructor
  · intro hle
    obtain ⟨j, hj, hbit⟩ := Nat.exists_ge_and_testBit_of_ge_two_pow hle
    exact ⟨j, hj, BitVec.lt_of_getLsbD hbit, hbit⟩
  · rintro ⟨j, hj, -, hbit⟩
    exact (Nat.pow_le_pow_right (by decide) hj).trans (Nat.ge_two_pow_of_testBit hbit)

/-- Settles O29: fewer than 4 leading zeros are an operand of `2 ^ 252` or more. -/
theorem bitlenIsALeadingZeroCounter : Obligations.BitlenIsALeadingZeroCounter := by
  intro value s
  refine ⟨?_, fun hfew => exec_bitlen_of_outOfRange ((clz_lt_four_iff value).1 hfew) s,
    fun hmany => ?_⟩
  · simp only [clz_lt_four_iff, two_pow_le_toNat_iff, ← Nat.lt_succ_iff (n := 255)]
  · have hlt : value.toNat < 2 ^ 252 := by
      rw [← Nat.not_le, ← clz_lt_four_iff]
      omega
    rw [← bitLength_eq_sub_clz (by decide) value]
    exact exec_bitlen_of_lt hlt s

/-! ### The bounded decoders -/

/-- The length check of a variable-length decoder on both sides of its limit (R126). -/
theorem decodeBe_cases (limit : Nat) (len : Byte) (bytes : List Byte) (s : State) :
    (limit < len.toNat → decodeBe limit len bytes s = .next (s.reply ⟨0x03, 0, 0, 0⟩)) ∧
    (len.toNat ≤ limit → decodeBe limit len bytes s =
      .next (s.reply ⟨0x00, 0, BitVec.ofNat 384 (be bytes), 0⟩)) :=
  ⟨fun hlong => if_pos hlong, fun hfits => if_neg (Nat.not_lt.2 hfits)⟩

theorem exec_uintFromBe (len : Byte) (bytes : List Byte) (s : State) :
    exec (.uintFromBe len bytes) s = decodeBe 31 len bytes s := rfl

theorem exec_u64FromBe (len : Byte) (bytes : List Byte) (s : State) :
    exec (.u64FromBe len bytes) s = decodeBe 8 len bytes s := rfl

theorem exec_u256FromBe (len : Byte) (bytes : List Byte) (s : State) :
    exec (.u256FromBe len bytes) s = decodeBe 32 len bytes s := rfl

/-- Settles O30: three frames of format S, and one decoder at three limits. -/
theorem boundedDecodersReadBigEndian : Obligations.BoundedDecodersReadBigEndian := by
  refine ⟨fun f hop => decode_of_read_sequence (o := .uintFromBe) hop rfl,
    fun f hop => decode_of_read_sequence (o := .u64FromBe) hop rfl,
    fun f hop => decode_of_read_sequence (o := .u256FromBe) hop rfl, fun len bytes s => ?_⟩
  rw [exec_uintFromBe, exec_u64FromBe, exec_u256FromBe]
  obtain ⟨hlong31, hfits31⟩ := decodeBe_cases 31 len bytes s
  obtain ⟨hlong8, hfits8⟩ := decodeBe_cases 8 len bytes s
  obtain ⟨hlong32, hfits32⟩ := decodeBe_cases 32 len bytes s
  exact ⟨hlong31, hfits31, hlong8, hfits8, hlong32, hfits32⟩

end Sys2Proof.Proofs
end

section
/-! The U256 codecs of 32 and 20 bytes (spec 43_u256_codec.md R130 to R139). Each result is the slot
image of a sequence: of the bytes of a decoder, and of the digits of the operand of an encoder, in
reverse where a codec is big-endian. Lanes, limbs and round trips are facts about slot images. -/

namespace Sys2Proof.Proofs

open Sys2Proof.Machine Sys2Proof.Laws

set_option exponentiation.threshold 2000

/-! ### Parts of a slot -/

theorem extractLsb'_toNat_eq {w : Nat} (x : BitVec w) (p n : Nat) :
    (x.extractLsb' p n).toNat = x.toNat / 2 ^ p % 2 ^ n := by
  rw [BitVec.extractLsb'_toNat, Nat.shiftRight_eq_div_pow]

theorem extractLsb'_eq_zero_of_lt {w p : Nat} {x : BitVec w} (h : x.toNat < 2 ^ p) (n : Nat) :
    x.extractLsb' p n = 0 := by
  apply BitVec.eq_of_toNat_eq
  rw [extractLsb'_toNat_eq, Nat.div_eq_of_lt h, Nat.zero_mod]
  rfl

/-- The limbs of a slot that holds `high * 2 ^ 128 + low` (20_memory.md R43). -/
theorem limbs_toNat {x : Slot} {high low : Nat} (h : x.toNat = high * 2 ^ 128 + low)
    (hhigh : high < 2 ^ 128) (hlow : low < 2 ^ 128) :
    (x.extractLsb' 0 128).toNat = low ∧ (x.extractLsb' 128 128).toNat = high := by
  rw [extractLsb'_toNat_eq, extractLsb'_toNat_eq, h]
  omega

theorem u256Of_toNat (x : Slot) : (u256Of x).toNat = x.toNat % 2 ^ 256 := by
  rw [u256Of, extractLsb'_toNat_eq, Nat.pow_zero, Nat.div_one]

theorem u256Of_zext384 {v : Nat} (h : v < 2 ^ 256) : (u256Of (zext384 v)).toNat = v :=
  uintOf_zext384 h

theorem u256High_toNat (m : U256) : (u256High m).toNat = m.toNat / 2 ^ 128 := by
  have := m.isLt
  rw [extractLsb'_toNat_eq]
  omega

theorem u256High_u256Of (x : Slot) : u256High (u256Of x) = x.extractLsb' 128 128 :=
  extractLsb'_extractLsb' x 0 128 256 128 (by decide)

/-! ### Lanes of a slot image -/

theorem bytesOf_slotImage_of_length {s : List Byte} {n : Nat} (h : s.length = n) (hn : n ≤ 48) :
    bytesOf (slotImage s) n = s := by
  subst h
  exact bytesOf_slotImage hn

theorem getElem_bytesOf (x : Slot) (n k : Nat) (hk : k < (bytesOf x n).length) :
    (bytesOf x n)[k] = laneOf x k := by
  simp [bytesOf]

/-- Byte `k` of a sequence stands in lane `k` of its image (20_memory.md R40). -/
theorem laneOf_slotImage {s : List Byte} {k : Nat} (hs : s.length ≤ 48) (hk : k < s.length) :
    laneOf (slotImage s) k = s[k] := by
  have hlanes := bytesOf_slotImage hs
  calc laneOf (slotImage s) k
      = (bytesOf (slotImage s) s.length)[k]'(by rwa [bytesOf_length]) :=
        (getElem_bytesOf _ _ _ _).symm
    _ = s[k] := List.getElem_of_eq hlanes _

/-- The lanes above the bytes are zero (20_memory.md R40). -/
theorem slotImage_extractLsb'_above {s : List Byte} {n : Nat} (h : s.length = n) (w : Nat) :
    (slotImage s).extractLsb' (8 * n) w = 0 :=
  extractLsb'_eq_zero_of_lt (by rw [Nat.pow_mul]; exact slotImage_lt h) w

theorem zext384_le (s : List Byte) : zext384 (le s) = slotImage s := rfl

theorem zext384_be (s : List Byte) : zext384 (be s) = slotImage s.reverse := by
  rw [← le_reverse, zext384_le]

theorem zext384_be_toNat {s : List Byte} (h : s.length ≤ 48) : (zext384 (be s)).toNat = be s :=
  zext384_toNat ((be_lt s).trans_le (pow256_le_slot h))

/-- The move of lanes that every big-endian codec makes (R137, R138). -/
theorem laneOf_slotImage_reverse_bytesOf (x : Slot) {n k : Nat} (hn : n ≤ 48) (hk : k < n) :
    laneOf (slotImage (bytesOf x n).reverse) k = laneOf x (n - 1 - k) := by
  rw [laneOf_slotImage (by simpa using hn) (by simpa using hk), List.getElem_reverse,
    getElem_bytesOf, bytesOf_length]

/-! ### The digits of a number -/

theorem getElem_beBytes (v n k : Nat) (hk : k < (beBytes v n).length) :
    (beBytes v n)[k] = BitVec.ofNat 8 (v / 256 ^ (n - 1 - k)) := by
  induction n generalizing k with
  | zero => cases hk
  | succ n ih =>
    cases k with
    | zero => rfl
    | succ k =>
      have hindex : n + 1 - 1 - (k + 1) = n - 1 - k := by omega
      rw [hindex]
      exact ih k (Nat.lt_of_succ_lt_succ hk)

theorem laneOf_slotImage_beBytes (v : Nat) {n k : Nat} (hn : n ≤ 48) (hk : k < n) :
    laneOf (slotImage (beBytes v n)) k = BitVec.ofNat 8 (v / 256 ^ (n - 1 - k) % 256) := by
  rw [laneOf_slotImage (by simpa using hn) (by simpa using hk), getElem_beBytes]
  exact BitVec.eq_of_toNat_eq (by simp)

/-- The digits of an operand are the lanes it was read from. -/
theorem leBytes_u256Of (x : Slot) {n : Nat} (hn : n ≤ 32) :
    leBytes (u256Of x).toNat n = bytesOf x n := by
  have hdvd : 256 ^ n ∣ 2 ^ 256 := pow_dvd_pow 256 hn
  apply le_inj (by simp)
  rw [le_leBytes, le_bytesOf, u256Of_toNat, Nat.mod_mod_of_dvd _ hdvd]

theorem beBytes_u256Of (x : Slot) {n : Nat} (hn : n ≤ 32) :
    beBytes (u256Of x).toNat n = (bytesOf x n).reverse := by
  rw [beBytes_eq_reverse, leBytes_u256Of x hn]

theorem be_beBytes_of_lt {v n : Nat} (h : v < 256 ^ n) : be (beBytes v n) = v := by
  rw [be_beBytes, Nat.mod_eq_of_lt h]

/-- A sequence cut in two: the front weighs more in a big-endian number. -/
theorem be_take_drop (s : List Byte) (k : Nat) :
    be s = be (s.take k) * 256 ^ (s.length - k) + be (s.drop k) := by
  rw [← List.length_drop, ← be_append, List.take_append_drop]

/-- A sequence cut in two: the back weighs more in a little-endian number. -/
theorem le_take_drop {s : List Byte} {k : Nat} (hk : k ≤ s.length) :
    le s = le (s.take k) + 256 ^ k * le (s.drop k) := by
  calc le s = le (s.take k ++ s.drop k) := by rw [List.take_append_drop]
    _ = _ := by rw [le_append, List.length_take_of_le hk]

theorem le_lt_of_length_le {s : List Byte} {n : Nat} (h : s.length ≤ n) : le s < 256 ^ n := by
  rw [← be_reverse]
  exact be_lt_of_length_le (by rwa [List.length_reverse])

/-- The lanes of a word of any width make its low bytes. -/
theorem le_lanes {w : Nat} (x : BitVec w) (n : Nat) :
    le ((List.range n).map fun k => x.extractLsb' (8 * k) 8) = x.toNat % 256 ^ n :=
  le_map_lanes _ _ _ fun k _ => by
    rw [extractLsb'_toNat_eq, Nat.pow_mul]
    rfl

/-! ### Copies of a U256 -/

theorem zext384_toNat_u256 (m : U256) : zext384 m.toNat = m.setWidth 384 :=
  BitVec.ofNat_toNat 384 m

theorem slotImage_leBytes_u256 (m : U256) : slotImage (leBytes m.toNat 32) = m.setWidth 384 := by
  have hlt : m.toNat < 256 ^ 32 := m.isLt
  rw [← zext384_le, le_leBytes, Nat.mod_eq_of_lt hlt, zext384_toNat_u256]

theorem slotImage_bytesOf_32 (x : Slot) : slotImage (bytesOf x 32) = (u256Of x).setWidth 384 := by
  rw [← leBytes_u256Of x (le_refl 32), slotImage_leBytes_u256]

theorem u256Of_setWidth (m : U256) : u256Of (m.setWidth 384) = m := uintOf_wide m

/-- A widened U256 stands in the low 256 bits, with zeros above. -/
theorem setWidth_parts (m : U256) :
    (m.setWidth 384).extractLsb' 0 256 = m ∧ (m.setWidth 384).extractLsb' 256 128 = 0 := by
  refine ⟨u256Of_setWidth m, extractLsb'_eq_zero_of_lt ?_ 128⟩
  rw [← zext384_toNat_u256]
  exact zext384_lt m.isLt

/-! ### The frames and answers of the codecs -/

/-- A command whose format reads a fixed number of lanes of slot `A` (30_encoding.md R71). -/
theorem decode_of_read_lanes {f : CommandFrame} {o : Opcode} {c : List Byte → Instr} {n : Nat}
    (hn : n ≤ 48) (hop : f.op = o.byte) (hread : o.read f = c (bytesOf f.slotA n)) :
    decode f = .ok (c ((List.range n).map fun k => f.extractLsb' (16 + 8 * k) 8)) := by
  rw [decode_of_op hop, hread, bytesOf_slotA f hn]

/-- A step on the frame of an operation puts the answer of its command behind the others. -/
theorem step_of_exec_read {f : CommandFrame} {o : Opcode} {r : Response} (hop : f.op = o.byte)
    (hexec : ∀ s, exec (o.read f) s = .next (s.reply r)) (cs : List CommandFrame)
    (rs : List ResponseFrame) : step ⟨f :: cs, rs⟩ = .next ⟨cs, rs ++ [r.pack]⟩ :=
  (step_of_decode_ok (decode_of_op hop) cs rs).trans (hexec _)

theorem exec_u256FromBe32 (bytes : List Byte) (s : State) :
    exec (.u256FromBe32 bytes) s = .next (s.reply ⟨0x00, 0, zext384 (be bytes), 0⟩) := rfl

theorem exec_u256ToBe32 (m : U256) (s : State) :
    exec (.u256ToBe32 m) s = .next (s.reply ⟨0x00, 32, slotImage (beBytes m.toNat 32), 0⟩) := rfl

theorem exec_u256FromLe32 (bytes : List Byte) (s : State) :
    exec (.u256FromLe32 bytes) s = .next (s.reply ⟨0x00, 0, slotImage bytes, 0⟩) := rfl

theorem exec_u256ToLe32 (m : U256) (s : State) :
    exec (.u256ToLe32 m) s = .next (s.reply ⟨0x00, 32, m.setWidth 384, 0⟩) := by
  rw [← slotImage_leBytes_u256]
  rfl

/-- The two parts that the operation reads are the number of all 20 bytes (R134). -/
theorem exec_u256FromBe20 {bytes : List Byte} (h : bytes.length = 20) (s : State) :
    exec (.u256FromBe20 bytes) s = .next (s.reply ⟨0x00, 0, zext384 (be bytes), 0⟩) := by
  rw [← be_split20 h]
  rfl

theorem exec_u256ToBe20_of_overflow {m : U256} (h : 2 ^ 32 - 1 < (u256High m).toNat) (s : State) :
    exec (.u256ToBe20 m) s = .next (s.reply ⟨0x02, 0, 0, 0⟩) :=
  if_pos h

theorem exec_u256ToBe20_of_fits {m : U256} (h : (u256High m).toNat ≤ 2 ^ 32 - 1) (s : State) :
    exec (.u256ToBe20 m) s =
      .next (s.reply ⟨0x00, 20, slotImage (beBytes m.toNat 20), 0⟩) :=
  if_neg (Nat.not_lt.2 h)

/-- The guard on the high limb is one on the number (R135). -/
theorem u256High_le_iff (m : U256) : (u256High m).toNat ≤ 2 ^ 32 - 1 ↔ m.toNat < 2 ^ 160 := by
  rw [u256High_toNat]
  omega

/-! ### Limbs and bytes -/

/-- Settles O31: 32 bytes are two halves of 16, and lane `k` holds digit `31 - k`. -/
theorem be32CodecReversesBytes : Obligations.Be32CodecReversesBytes := by
  refine ⟨fun f hop => decode_of_read_lanes (o := .u256FromBe32) (by decide) hop rfl,
    fun f hop => decode_of_read_one (o := .u256ToBe32) hop rfl, fun bytes s hlength => ?_,
    fun m s => ?_⟩
  · have htoNat : (zext384 (be bytes)).toNat = be bytes := zext384_be_toNat (by omega)
    have hsplit := be_take_drop bytes 16
    rw [hlength] at hsplit
    exact ⟨_, exec_u256FromBe32 bytes s, htoNat, limbs_toNat (htoNat.trans hsplit)
      (be_lt_of_length_le (n := 16) (by simp)) (be_lt_of_length_le (n := 16) (by simp [hlength]))⟩
  · exact ⟨_, exec_u256ToBe32 m s, fun k hk => laneOf_slotImage_beBytes _ (by decide) hk,
      slotImage_extractLsb'_above (beBytes_length _ 32) 128⟩

/-- Settles O32: 32 bytes are two halves of 16, and the lanes of a number are its digits. -/
theorem le32CodecCopiesBits : Obligations.Le32CodecCopiesBits := by
  refine ⟨fun f hop => decode_of_read_lanes (o := .u256FromLe32) (by decide) hop rfl,
    fun f hop => decode_of_read_one (o := .u256ToLe32) hop rfl, fun bytes s hlength => ?_,
    fun x s => ?_, exec_u256ToLe32⟩
  · have htoNat : (slotImage bytes).toNat = le bytes := slotImage_toNat (by omega)
    have hsplit : le bytes = le (bytes.drop 16) * 2 ^ 128 + le (bytes.take 16) := by
      rw [le_take_drop (show 16 ≤ bytes.length by omega), Nat.add_comm, Nat.mul_comm]
      rfl
    exact ⟨_, exec_u256FromLe32 bytes s, htoNat, limbs_toNat (htoNat.trans hsplit)
      (le_lt_of_length_le (n := 16) (by simp [hlength])) (le_lt_of_length_le (n := 16) (by simp))⟩
  · have hlt : x.toNat < 256 ^ 32 := x.isLt
    rw [exec_u256FromLe32, ← zext384_le, le_lanes, Nat.mod_eq_of_lt hlt, zext384_toNat_u256]

/-- Settles O33: 20 bytes are 4 above 16, and under the guard lane `k` holds digit `19 - k`. -/
theorem be20CodecSplitsAtFourBytes : Obligations.Be20CodecSplitsAtFourBytes := by
  refine ⟨fun f hop => decode_of_read_lanes (o := .u256FromBe20) (by decide) hop rfl,
    fun f hop => decode_of_read_one (o := .u256ToBe20) hop rfl, fun bytes s hlength => ?_,
    fun m s => ⟨fun hover => exec_u256ToBe20_of_overflow hover s, fun hfits => ?_⟩⟩
  · have htoNat : (zext384 (be bytes)).toNat = be bytes := zext384_be_toNat (by omega)
    have hhigh : be (bytes.take 4) < 256 ^ 16 :=
      be_lt_of_length_le ((List.length_take_le 4 bytes).trans (by decide))
    exact ⟨_, exec_u256FromBe20 hlength s, htoNat,
      limbs_toNat (htoNat.trans (be_split20 hlength).symm) hhigh
        (be_lt_of_length_le (n := 16) (by simp [hlength]))⟩
  · exact ⟨_, exec_u256ToBe20_of_fits hfits s,
      fun k hk => laneOf_slotImage_beBytes _ (by decide) hk,
      slotImage_extractLsb'_above (beBytes_length _ 20) 224⟩

/-! ### Moves of lanes -/

section
variable {f : CommandFrame} (cs : List CommandFrame) (rs : List ResponseFrame)

theorem step_u256FromBe32 (hop : f.op = 0x40) :
    step ⟨f :: cs, rs⟩ = .next ⟨cs, rs ++
      [(⟨0x00, 0, slotImage (bytesOf f.slotA 32).reverse, 0⟩ : Response).pack]⟩ := by
  refine step_of_exec_read (o := .u256FromBe32) hop (fun s => ?_) cs rs
  rw [← zext384_be]
  exact exec_u256FromBe32 _ s

theorem step_u256ToBe32 (hop : f.op = 0x41) :
    step ⟨f :: cs, rs⟩ = .next ⟨cs, rs ++
      [(⟨0x00, 32, slotImage (bytesOf f.slotA 32).reverse, 0⟩ : Response).pack]⟩ := by
  refine step_of_exec_read (o := .u256ToBe32) hop (fun s => ?_) cs rs
  rw [← beBytes_u256Of f.slotA (le_refl 32)]
  exact exec_u256ToBe32 _ s

theorem step_u256FromLe32 (hop : f.op = 0x42) :
    step ⟨f :: cs, rs⟩ = .next ⟨cs, rs ++
      [(⟨0x00, 0, (u256Of f.slotA).setWidth 384, 0⟩ : Response).pack]⟩ := by
  refine step_of_exec_read (o := .u256FromLe32) hop (fun s => ?_) cs rs
  rw [← slotImage_bytesOf_32]
  exact exec_u256FromLe32 _ s

theorem step_u256ToLe32 (hop : f.op = 0x43) :
    step ⟨f :: cs, rs⟩ = .next ⟨cs, rs ++
      [(⟨0x00, 32, (u256Of f.slotA).setWidth 384, 0⟩ : Response).pack]⟩ :=
  step_of_exec_read (o := .u256ToLe32) hop (exec_u256ToLe32 (u256Of f.slotA)) cs rs

theorem step_u256FromBe20 (hop : f.op = 0x44) :
    step ⟨f :: cs, rs⟩ = .next ⟨cs, rs ++
      [(⟨0x00, 0, slotImage (bytesOf f.slotA 20).reverse, 0⟩ : Response).pack]⟩ := by
  refine step_of_exec_read (o := .u256FromBe20) hop (fun s => ?_) cs rs
  rw [← zext384_be]
  exact exec_u256FromBe20 (bytesOf_length _ _) s

theorem step_u256ToBe20 (hfits : (f.slotA.extractLsb' 128 128).toNat ≤ 2 ^ 32 - 1)
    (hop : f.op = 0x45) :
    step ⟨f :: cs, rs⟩ = .next ⟨cs, rs ++
      [(⟨0x00, 20, slotImage (bytesOf f.slotA 20).reverse, 0⟩ : Response).pack]⟩ := by
  refine step_of_exec_read (o := .u256ToBe20) hop (fun s => ?_) cs rs
  rw [← u256High_u256Of] at hfits
  rw [← beBytes_u256Of f.slotA (by decide : 20 ≤ 32)]
  exact exec_u256ToBe20_of_fits hfits s

end

/-- A reversed image of the low `n` lanes has zeros above them. -/
theorem slotImage_reverse_bytesOf_above (x : Slot) (n w : Nat) :
    (slotImage (bytesOf x n).reverse).extractLsb' (8 * n) w = 0 :=
  slotImage_extractLsb'_above (by rw [List.length_reverse, bytesOf_length]) w

/-- Settles O34: encoder and decoder of one order move the lanes alike. -/
theorem thirtyTwoByteCodecsAtBitLevel : Obligations.ThirtyTwoByteCodecsAtBitLevel := by
  intro f cs rs
  have hreversed : ∀ k < 32, laneOf (slotImage (bytesOf f.slotA 32).reverse) k =
      laneOf f.slotA (31 - k) :=
    fun k hk => laneOf_slotImage_reverse_bytesOf f.slotA (by decide) hk
  have hzero := slotImage_reverse_bytesOf_above f.slotA 32 128
  have hcopied := setWidth_parts (u256Of f.slotA)
  exact ⟨fun hop => ⟨_, step_u256FromBe32 cs rs hop, hreversed, hzero⟩,
    fun hop => ⟨_, step_u256ToBe32 cs rs hop, hreversed, hzero⟩,
    fun hop => ⟨_, step_u256FromLe32 cs rs hop, hcopied⟩,
    fun hop => ⟨_, step_u256ToLe32 cs rs hop, hcopied⟩⟩

/-- Settles O35: both codecs reverse the 20 lanes; a lane of a high limb is lane 16 or above. -/
theorem twentyByteCodecsAtBitLevel : Obligations.TwentyByteCodecsAtBitLevel := by
  intro f cs rs
  have hreversed : ∀ k < 20, laneOf (slotImage (bytesOf f.slotA 20).reverse) k =
      laneOf f.slotA (19 - k) :=
    fun k hk => laneOf_slotImage_reverse_bytesOf f.slotA (by decide) hk
  have hlane (x : Slot) (j : Nat) : x.extractLsb' (128 + 8 * j) 8 = laneOf x (16 + j) := by
    rw [laneOf, Nat.mul_add]
  have hzero := slotImage_reverse_bytesOf_above f.slotA 20 224
  refine ⟨fun hop => ⟨_, step_u256FromBe20 cs rs hop, fun k hk => hreversed k (by omega),
    fun k hk => ?_, hzero⟩, fun hfits hop => ⟨_, step_u256ToBe20 cs rs hfits hop,
    fun k hk _ => hreversed k hk, fun k hk => ?_, hzero⟩⟩
  · rw [hlane, hreversed (16 + k) (by omega), show 19 - (16 + k) = 3 - k by omega]
  · rw [hlane, hreversed k (by omega), show 16 + (3 - k) = 19 - k by omega]

/-! ### Round trips -/

/-- Encoding the number that was decoded gives its bytes back (R9). -/
theorem beBytes_u256Of_be {bytes : List Byte} {n : Nat} (h : bytes.length = n) (hn : n ≤ 32) :
    beBytes (u256Of (zext384 (be bytes))).toNat n = bytes := by
  have hlt : be bytes < 2 ^ 256 := be_lt_of_length_le (n := 32) (by omega)
  subst h
  rw [u256Of_zext384 hlt, beBytes_be]

/-- Decoding the bytes that encode a number gives the number back (R9). -/
theorem be_bytesOf_slotImage_beBytes {v n : Nat} (hn : n ≤ 48) (hv : v < 256 ^ n) :
    be (bytesOf (slotImage (beBytes v n)) n) = v := by
  rw [bytesOf_slotImage_of_length (beBytes_length v n) hn, be_beBytes_of_lt hv]

/-- An address passes the guard of the encoder (R135, R139). -/
theorem u256High_u256Of_be_le {bytes : List Byte} (h : bytes.length = 20) :
    (u256High (u256Of (zext384 (be bytes)))).toNat ≤ 2 ^ 32 - 1 := by
  have hlt : be bytes < 2 ^ 160 := be_lt_of_length_le (n := 20) h.le
  rw [u256High_le_iff, u256Of_zext384 (hlt.trans (by decide))]
  exact hlt

/-- Settles O36: each pair of operations is a pair of inverses of R9 around a slot. -/
theorem thirtyTwoAndTwentyByteRoundTrips : Obligations.ThirtyTwoAndTwentyByteRoundTrips := by
  refine ⟨fun bytes s t hlength => ⟨_, exec_u256FromBe32 bytes s, ?_⟩,
    fun bytes s t hlength => ⟨_, exec_u256FromLe32 bytes s, ?_⟩,
    fun bytes s t hlength => ⟨_, exec_u256FromBe20 hlength s, ?_⟩,
    fun m s t => ⟨_, exec_u256ToBe32 m s, ?_⟩, fun m s t => ⟨_, exec_u256ToLe32 m s, ?_⟩,
    fun m s t hm => ⟨_, exec_u256ToBe20_of_fits ((u256High_le_iff m).2 hm) s, ?_⟩⟩
  · rw [exec_u256ToBe32, beBytes_u256Of_be hlength (by decide)]
  · rw [exec_u256ToLe32, ← slotImage_bytesOf_32, bytesOf_slotImage_of_length hlength (by decide)]
  · rw [exec_u256ToBe20_of_fits (u256High_u256Of_be_le hlength),
      beBytes_u256Of_be hlength (by decide)]
  · rw [exec_u256FromBe32, be_bytesOf_slotImage_beBytes (by decide) m.isLt, zext384_toNat_u256]
  · rw [exec_u256FromLe32, slotImage_bytesOf_32, u256Of_setWidth]
  · rw [exec_u256FromBe20 (bytesOf_length _ _), be_bytesOf_slotImage_beBytes (by decide) hm,
      zext384_toNat_u256]

end Sys2Proof.Proofs
end

section
/-! U256 arithmetic, order and conversions (spec 44_u256_arith.md R150 to R160): each check as an
inequality of magnitudes, the two limbs as a number in base `2 ^ 128`, and the answer of each
command on both sides of its check. -/

namespace Sys2Proof.Proofs

open Sys2Proof.Machine Sys2Proof.Laws

set_option exponentiation.threshold 2000

/-! ### The checks, the carry and truth values -/

theorem addOverflows_iff (a b : U256) : addOverflows a b = true ↔ 2 ^ 256 ≤ a.toNat + b.toNat :=
  decide_eq_true_iff

theorem subUnderflows_iff (a b : U256) : subUnderflows a b = true ↔ a.toNat < b.toNat :=
  decide_eq_true_iff

theorem mulOverflows_iff (a b : U256) : mulOverflows a b = true ↔ 2 ^ 256 ≤ a.toNat * b.toNat :=
  decide_eq_true_iff

/-- Sum and carry are the two digits of the exact sum in base `2 ^ 256` (R151). -/
theorem add_eq_carryOut (a b : U256) :
    a.toNat + b.toNat = carryOut a b * 2 ^ 256 + (a.toNat + b.toNat) % 2 ^ 256 :=
  (Nat.div_add_mod' _ _).symm

theorem carryOut_eq_zero_iff (a b : U256) : carryOut a b = 0 ↔ a.toNat + b.toNat < 2 ^ 256 := by
  rw [carryOut, Nat.div_eq_zero_iff_lt (by decide)]

theorem truth_decide (p : Prop) [Decidable p] : truth (decide p) = if p then 1 else 0 := by
  by_cases h : p
  · rw [decide_eq_true h, if_pos h]
    rfl
  · rw [decide_eq_false h, if_neg h]
    rfl

/-- The answers to a test tell its two outcomes apart. -/
theorem reply_truth_iff (p : Prop) [Decidable p] (s : State) :
    (Host.Outcome.next (s.reply ⟨0x00, 0, if p then 1 else 0, 0⟩) :
      Host.Outcome State Fault Refusal) = .next (s.reply ⟨0x00, 0, 1, 0⟩) ↔ p := by
  rw [Host.Outcome.next.injEq, reply_eq_iff, Response.mk.injEq]
  by_cases h : p
  · simp [h]
  · simp [h]

/-! ### The two limbs -/

theorem toNat_eq_limbs (m : U256) :
    m.toNat = (u256High m).toNat * 2 ^ 128 + (u256Low m).toNat := by
  rw [u256High_toNat, extractLsb'_toNat_eq, Nat.pow_zero, Nat.div_one, Nat.div_add_mod']

/-- The order of magnitudes is the order of the limbs, high limb first (R154). -/
theorem toNat_le_iff_limbs (a b : U256) :
    a.toNat ≤ b.toNat ↔ (u256High a).toNat < (u256High b).toNat ∨
      ((u256High a).toNat = (u256High b).toNat ∧ (u256Low a).toNat ≤ (u256Low b).toNat) := by
  have ha := (u256Low a).isLt
  have hb := (u256Low b).isLt
  rw [toNat_eq_limbs a, toNat_eq_limbs b]
  omega

theorem limbs_eq_iff (a b : U256) :
    (u256Low a = u256Low b ∧ u256High a = u256High b) ↔ a.toNat = b.toNat := by
  constructor
  · rintro ⟨hlow, hhigh⟩
    rw [toNat_eq_limbs a, toNat_eq_limbs b, hlow, hhigh]
  · intro h
    obtain rfl := BitVec.eq_of_toNat_eq h
    exact ⟨rfl, rfl⟩

/-! ### The answers of the checked operations -/

theorem exec_u256Add (a b : U256) (s : State) : exec (.u256Add a b) s = execU256Add a b s := rfl

theorem exec_u256Sub (a b : U256) (s : State) : exec (.u256Sub a b) s = execU256Sub a b s := rfl

theorem exec_u256Mul (a b : U256) (s : State) : exec (.u256Mul a b) s = execU256Mul a b s := rfl

section
variable {a b : U256}

theorem exec_u256Add_of_overflow (h : 2 ^ 256 ≤ a.toNat + b.toNat) (s : State) :
    exec (.u256Add a b) s = .next (s.reply ⟨0x02, 0, 0, 0⟩) := by
  rw [exec_u256Add, execU256Add, if_pos ((addOverflows_iff a b).2 h)]
  exact raise_eq .overflowError s

theorem exec_u256Add_of_fits (h : a.toNat + b.toNat < 2 ^ 256) (s : State) :
    exec (.u256Add a b) s = .next (s.reply ⟨0x00, 0, zext384 (a.toNat + b.toNat), 0⟩) := by
  rw [exec_u256Add, execU256Add, if_neg (mt (addOverflows_iff a b).1 (Nat.not_le.2 h))]
  exact complete_eq ..

theorem exec_u256Sub_of_underflow (h : a.toNat < b.toNat) (s : State) :
    exec (.u256Sub a b) s = .next (s.reply ⟨0x02, 0, 0, 0⟩) := by
  rw [exec_u256Sub, execU256Sub, if_pos ((subUnderflows_iff a b).2 h)]
  exact raise_eq .overflowError s

theorem exec_u256Sub_of_fits (h : b.toNat ≤ a.toNat) (s : State) :
    exec (.u256Sub a b) s = .next (s.reply ⟨0x00, 0, zext384 (a.toNat - b.toNat), 0⟩) := by
  rw [exec_u256Sub, execU256Sub, if_neg (mt (subUnderflows_iff a b).1 (Nat.not_lt.2 h))]
  exact complete_eq ..

theorem exec_u256Mul_of_overflow (h : 2 ^ 256 ≤ a.toNat * b.toNat) (s : State) :
    exec (.u256Mul a b) s = .next (s.reply ⟨0x02, 0, 0, 0⟩) := by
  rw [exec_u256Mul, execU256Mul, if_pos ((mulOverflows_iff a b).2 h)]
  exact raise_eq .overflowError s

theorem exec_u256Mul_of_fits (h : a.toNat * b.toNat < 2 ^ 256) (s : State) :
    exec (.u256Mul a b) s = .next (s.reply ⟨0x00, 0, zext384 (a.toNat * b.toNat), 0⟩) := by
  rw [exec_u256Mul, execU256Mul, if_neg (mt (mulOverflows_iff a b).1 (Nat.not_le.2 h))]
  exact complete_eq ..

end

/-- Settles O38: the two sides of the check. -/
theorem addIsCheckedAt256Bits : Obligations.AddIsCheckedAt256Bits :=
  ⟨fun _ hop => decode_of_read_two (o := .u256Add) hop rfl, fun _ _ s =>
    ⟨fun hover => exec_u256Add_of_overflow hover s, fun hfits => exec_u256Add_of_fits hfits s⟩⟩

/-- Settles O40: the two sides of the check. -/
theorem subIsCheckedForUnderflow : Obligations.SubIsCheckedForUnderflow :=
  ⟨fun _ hop => decode_of_read_two (o := .u256Sub) hop rfl, fun _ _ s =>
    ⟨fun hunder => exec_u256Sub_of_underflow hunder s, fun hfits => exec_u256Sub_of_fits hfits s⟩⟩

/-- Settles O41: the two sides of the check. -/
theorem mulIsCheckedAt256Bits : Obligations.MulIsCheckedAt256Bits :=
  ⟨fun _ hop => decode_of_read_two (o := .u256Mul) hop rfl, fun _ _ s =>
    ⟨fun hover => exec_u256Mul_of_overflow hover s, fun hfits => exec_u256Mul_of_fits hfits s⟩⟩

/-! ### Carry and inverse -/

theorem exec_u256Addc (a b : U256) (s : State) :
    exec (.u256Addc a b) s = .next (s.reply
      ⟨0x00, 0, zext384 ((a.toNat + b.toNat) % 2 ^ 256), zext384 (carryOut a b)⟩) := rfl

/-- Settles O39: both digits fit a slot, and the carry is the check of U256_ADD. -/
theorem addcReturnsSumAndCarry : Obligations.AddcReturnsSumAndCarry := by
  refine ⟨fun f hop => decode_of_read_two (o := .u256Addc) hop rfl, fun a b s =>
    ⟨_, _, exec_u256Addc a b s, ?_⟩⟩
  have hsum : (a.toNat + b.toNat) % 2 ^ 256 < 2 ^ 256 := Nat.mod_lt _ (by decide)
  have hcarry := carryOut_lt a b
  rw [zext384_toNat (hsum.trans (by decide)), zext384_toNat (hcarry.trans (by decide))]
  refine ⟨add_eq_carryOut a b, hsum, Nat.le_of_lt_succ hcarry, fun hzero => ?_, fun hone => ?_⟩
  · have hfits := (carryOut_eq_zero_iff a b).1 hzero
    rw [Nat.mod_eq_of_lt hfits]
    exact exec_u256Add_of_fits hfits s
  · refine exec_u256Add_of_overflow (Nat.le_of_not_lt fun hfits => ?_) s
    exact absurd ((carryOut_eq_zero_iff a b).2 hfits) (by omega)

/-- Settles O42: the sum that fits is read back whole, so the second command subtracts from it. -/
theorem addThenSubGivesBack : Obligations.AddThenSubGivesBack := by
  refine ⟨fun a b s t hfits => ⟨_, exec_u256Add_of_fits hfits s, ?_⟩, fun s => ⟨?_, ?_⟩⟩
  · have hread : (u256Of (zext384 (a.toNat + b.toNat))).toNat = a.toNat + b.toNat :=
      u256Of_zext384 hfits
    rw [exec_u256Sub_of_fits (by omega), hread, Nat.add_sub_cancel, zext384_toNat_u256]
  · exact exec_u256Add_of_overflow (by decide) s
  · exact exec_u256Add_of_fits (by decide) s

/-! ### The tests -/

theorem exec_u256Le (a b : U256) (s : State) :
    exec (.u256Le a b) s =
      .next (s.reply ⟨0x00, 0, if a.toNat ≤ b.toNat then 1 else 0, 0⟩) := by
  rw [← truth_decide]
  rfl

/-- U256_EQ compares limb by limb (R157). -/
theorem exec_u256Eq (a b : U256) (s : State) :
    exec (.u256Eq a b) s = .next (s.reply
      ⟨0x00, 0, if u256Low a = u256Low b ∧ u256High a = u256High b then 1 else 0, 0⟩) := by
  rw [← truth_decide]
  rfl

/-- Settles O43: the test on the magnitudes is the order of the limbs. -/
theorem leOrdersByHighLimbFirst : Obligations.LeOrdersByHighLimbFirst :=
  ⟨fun _ hop => decode_of_read_two (o := .u256Le) hop rfl,
    fun a b s => ⟨exec_u256Le a b s, toNat_le_iff_limbs a b⟩⟩

/-- Settles O45: equal limbs are equal magnitudes, and `<=` in both directions is equality. -/
theorem eqComparesLimbs : Obligations.EqComparesLimbs := by
  refine ⟨fun f hop => decode_of_read_two (o := .u256Eq) hop rfl, fun a b s =>
    ⟨fun heq => ?_, fun hne => ?_, limbs_eq_iff a b, ?_⟩⟩
  · rw [exec_u256Eq, if_pos heq]
  · rw [exec_u256Eq, if_neg hne]
  · rw [exec_u256Eq, exec_u256Le, exec_u256Le, reply_truth_iff, reply_truth_iff, reply_truth_iff,
      limbs_eq_iff]
    exact le_antisymm_iff

/-! ### The selections -/

theorem complete_select (p : Prop) [Decidable p] (a b : U256) (s : State) :
    (if p then complete s (zext384 a.toNat) else complete s (zext384 b.toNat)) =
      .next (s.reply ⟨0x00, 0, (if p then a else b).setWidth 384, 0⟩) := by
  by_cases h : p
  · rw [if_pos h, if_pos h, zext384_toNat_u256, complete_eq]
  · rw [if_neg h, if_neg h, zext384_toNat_u256, complete_eq]

theorem exec_u256Min (a b : U256) (s : State) :
    exec (.u256Min a b) s =
      .next (s.reply ⟨0x00, 0, (if a.toNat ≤ b.toNat then a else b).setWidth 384, 0⟩) :=
  complete_select (a.toNat ≤ b.toNat) a b s

/-- The test of U256_MAX is `b <= a`: a tie goes to `a` (R156). -/
theorem exec_u256Max (a b : U256) (s : State) :
    exec (.u256Max a b) s =
      .next (s.reply ⟨0x00, 0, (if b.toNat ≤ a.toNat then a else b).setWidth 384, 0⟩) :=
  complete_select (b.toNat ≤ a.toNat) a b s

/-- Settles O44: each command answers the operand that its test selects, widened. -/
theorem u256MinMaxPickAnOperand : Obligations.U256MinMaxPickAnOperand :=
  ⟨fun _ hop => decode_of_read_two (o := .u256Min) hop rfl,
    fun _ hop => decode_of_read_two (o := .u256Max) hop rfl,
    fun a b s => ⟨exec_u256Min a b s, exec_u256Max a b s⟩⟩

/-! ### The conversions -/

theorem exec_u256FromUint (v : UintField) (s : State) :
    exec (.u256FromUint v) s = execU256FromUint v s := rfl

/-- The bound of U256_TO_UINT is the domain check of U256_FROM_UINT (R158, R159). -/
theorem exec_u256ToUint (v : UintField) (s : State) :
    exec (.u256ToUint v) s = exec (.u256FromUint v) s :=
  (if_congr (outOfDomain_iff v) rfl rfl).symm

theorem exec_u256FromUint_of_outOfDomain {v : UintField} (h : 2 ^ 252 ≤ v.toNat) (s : State) :
    exec (.u256FromUint v) s = .next (s.reply ⟨0x03, 0, 0, 0⟩) := by
  rw [exec_u256FromUint, execU256FromUint, if_pos ((outOfDomain_iff v).2 h)]
  exact raise_eq .valueError s

theorem exec_u256FromUint_of_inDomain {v : UintField} (h : v.toNat < 2 ^ 252) (s : State) :
    exec (.u256FromUint v) s = .next (s.reply ⟨0x00, 0, zext384 v.toNat, 0⟩) := by
  rw [exec_u256FromUint, execU256FromUint, if_neg (not_outOfDomain h)]
  exact complete_eq ..

/-- Settles O46: both conversions are one function of the operand. -/
theorem uintConversionsKeepTheValue : Obligations.UintConversionsKeepTheValue := by
  refine ⟨fun f hop => decode_of_read_one (o := .u256FromUint) hop rfl,
    fun f hop => decode_of_read_one (o := .u256ToUint) hop rfl, fun v s => ?_⟩
  rw [exec_u256ToUint]
  exact ⟨fun hout => ⟨exec_u256FromUint_of_outOfDomain hout s,
      exec_u256FromUint_of_outOfDomain hout s⟩,
    fun hin => ⟨exec_u256FromUint_of_inDomain hin s, exec_u256FromUint_of_inDomain hin s⟩⟩

end Sys2Proof.Proofs
end

section
/-! U384 tests and the variable-length codec (spec 45_u384.md R170 to R176): a slot as its four
limbs, a run of 12 bytes of a big-endian sequence as a limb of its value, and the answers of the
decoder and the encoder under their checks. -/

namespace Sys2Proof.Proofs

open Sys2Proof.Machine Sys2Proof.Laws

set_option exponentiation.threshold 2000

/-! ### The four limbs -/

/-- A U384 is its limbs side by side (30_encoding.md R66). -/
theorem u384_eq_append_limbs (x : U384) :
    BitVec.cast rfl (u384D3 x ++ u384D2 x ++ u384D1 x ++ u384D0 x) = x := by
  rw [extractLsb'_glue x 192 96 96, extractLsb'_glue x 96 96 192, extractLsb'_glue x 0 96 288]
  exact extractLsb'_self x

/-- Equality of slots is equality limb by limb (R174). -/
theorem u384_eq_iff_limbs (x y : U384) :
    x = y ↔ u384D0 x = u384D0 y ∧ u384D1 x = u384D1 y ∧ u384D2 x = u384D2 y ∧
      u384D3 x = u384D3 y := by
  constructor
  · rintro rfl
    exact ⟨rfl, rfl, rfl, rfl⟩
  · rintro ⟨h0, h1, h2, h3⟩
    rw [← u384_eq_append_limbs x, ← u384_eq_append_limbs y, h0, h1, h2, h3]

/-! ### The tests -/

/-- A test of the limbs that decides `p` is answered with the truth value of `p`. -/
theorem complete_truth {test p : Prop} [Decidable test] [Decidable p] (h : p ↔ test) (s : State) :
    complete s (truth test) = .next (s.reply ⟨0x00, 0, if p then 1 else 0, 0⟩) := by
  rw [truth_decide, complete_eq, if_congr h rfl rfl]

theorem exec_u384Iszero (x : U384) (s : State) :
    exec (.u384Iszero x) s = .next (s.reply ⟨0x00, 0, if x = 0 then 1 else 0, 0⟩) :=
  complete_truth (u384_eq_iff_limbs x 0) s

theorem exec_u384Isone (x : U384) (s : State) :
    exec (.u384Isone x) s = .next (s.reply ⟨0x00, 0, if x = 1 then 1 else 0, 0⟩) :=
  complete_truth (u384_eq_iff_limbs x 1) s

theorem exec_u384Eq (x y : U384) (s : State) :
    exec (.u384Eq x y) s = .next (s.reply ⟨0x00, 0, if x = y then 1 else 0, 0⟩) :=
  complete_truth (u384_eq_iff_limbs x y) s

/-- A command whose format reads the whole slot `A` (30_encoding.md R71). -/
theorem decode_of_read_slot {f : CommandFrame} {o : Opcode} {c : U384 → Instr}
    (hop : f.op = o.byte) (hread : o.read f = c f.slotA) :
    decode f = .ok (c (f.extractLsb' 16 384)) :=
  (decode_of_op hop).trans (congrArg Except.ok hread)

/-- Settles O47: each test compares the four limbs with those of a slot, which is equality. -/
theorem u384TestsExamineEveryLimb : Obligations.U384TestsExamineEveryLimb :=
  ⟨fun _ hop => decode_of_read_slot (o := .u384Iszero) hop rfl,
    fun _ hop => decode_of_read_slot (o := .u384Isone) hop rfl,
    fun _ hop => decode_of_op (o := .u384Eq) hop,
    fun x y s => ⟨exec_u384Iszero x s, exec_u384Isone x s, exec_u384Eq x y s⟩,
    u384_eq_iff_limbs⟩

/-! ### Runs of bytes and limbs -/

/-- In a big-endian number the last `j` bytes are the remainder by `256 ^ j`, and the bytes before
them the quotient. -/
theorem be_div_mod_pow (s : List Byte) (j : Nat) :
    be s / 256 ^ j = be (s.take (s.length - j)) ∧ be s % 256 ^ j = be (s.drop (s.length - j)) := by
  have hback : (s.drop (s.length - j)).length ≤ j := by
    rw [List.length_drop]
    omega
  refine (Nat.div_mod_unique (by positivity)).2 ⟨?_, be_lt_of_length_le hback⟩
  rw [Nat.add_comm, Nat.mul_comm]
  by_cases hj : j ≤ s.length
  · rw [be_take_drop s (s.length - j), Nat.sub_sub_self hj]
  · rw [Nat.sub_eq_zero_of_le (Nat.le_of_not_le hj), List.take_zero, be, Nat.zero_mul, Nat.zero_add,
      List.drop_zero]

/-- A 96-bit limb that starts at lane `j` is a digit in base `256 ^ 12`. -/
theorem limb_toNat (x : U384) (j : Nat) :
    (x.extractLsb' (8 * j) 96).toNat = x.toNat / 256 ^ j % 256 ^ 12 := by
  rw [extractLsb'_toNat_eq, Nat.pow_mul]
  rfl

/-- The limb above the last `j` bytes holds the (at most 12) bytes that stand before them (R172). -/
theorem limb_zext384_be {s : List Byte} (hs : s.length ≤ 48) (j : Nat) :
    ((zext384 (be s)).extractLsb' (8 * j) 96).toNat =
      be ((s.take (s.length - j)).drop (s.length - j - 12)) := by
  obtain ⟨hfront, -⟩ := be_div_mod_pow s j
  obtain ⟨-, hback⟩ := be_div_mod_pow (s.take (s.length - j)) 12
  rw [List.length_take_of_le (Nat.sub_le _ _)] at hback
  rw [limb_toNat, zext384_be_toNat hs, hfront, hback]

/-- Encoding splits at any byte: the number above it, then the number below it. -/
theorem beBytes_add (v a b : Nat) :
    beBytes v (a + b) = beBytes (v / 256 ^ b) a ++ beBytes v b := by
  induction a with
  | zero => rw [Nat.zero_add, beBytes, List.nil_append]
  | succ a ih =>
    rw [Nat.succ_add, beBytes, ih, beBytes, List.cons_append, Nat.div_div_eq_div_mul, ← Nat.pow_add,
      Nat.add_comm b a]

/-- Encoding reads no digit above its length. -/
theorem beBytes_mod_pow (v : Nat) {n m : Nat} (h : n ≤ m) :
    beBytes (v % 256 ^ m) n = beBytes v n := by
  apply be_inj (by simp)
  rw [be_beBytes, be_beBytes, Nat.mod_mod_of_dvd _ (pow_dvd_pow 256 h)]

/-- The encoding of a U384, as far as it reaches into the limb at lane `j`: the bytes of that limb,
then those of the limbs below it (R173). -/
theorem beBytes_limb (x : U384) {j n : Nat} (hj : j ≤ n) (hn : n - j ≤ 12) :
    beBytes x.toNat n = beBytes (x.extractLsb' (8 * j) 96).toNat (n - j) ++ beBytes x.toNat j := by
  rw [limb_toNat, beBytes_mod_pow _ hn, ← beBytes_add, Nat.sub_add_cancel hj]

/-- The four shapes of an encoding, by the limb its first byte lies in (R173). -/
theorem beBytes_limbs (x : U384) (n : Nat) :
    (n ≤ 12 → beBytes x.toNat n = beBytes (u384D0 x).toNat n) ∧
    (12 ≤ n → n ≤ 24 → beBytes x.toNat n =
      beBytes (u384D1 x).toNat (n - 12) ++ beBytes (u384D0 x).toNat 12) ∧
    (24 ≤ n → n ≤ 36 → beBytes x.toNat n =
      beBytes (u384D2 x).toNat (n - 24) ++ beBytes (u384D1 x).toNat 12 ++
        beBytes (u384D0 x).toNat 12) ∧
    (36 ≤ n → n ≤ 48 → beBytes x.toNat n =
      beBytes (u384D3 x).toNat (n - 36) ++ beBytes (u384D2 x).toNat 12 ++
        beBytes (u384D1 x).toNat 12 ++ beBytes (u384D0 x).toNat 12) := by
  have hd0 (k : Nat) (hk : k ≤ 12) : beBytes x.toNat k = beBytes (u384D0 x).toNat k :=
    (beBytes_limb x (Nat.zero_le k) hk).trans (List.append_nil _)
  have hd1 (k : Nat) (hk : 12 ≤ k) (hk' : k ≤ 24) : beBytes x.toNat k =
      beBytes (u384D1 x).toNat (k - 12) ++ beBytes (u384D0 x).toNat 12 := by
    rw [← hd0 12 (le_refl 12)]
    exact beBytes_limb x hk (by omega)
  have hd2 (k : Nat) (hk : 24 ≤ k) (hk' : k ≤ 36) : beBytes x.toNat k =
      beBytes (u384D2 x).toNat (k - 24) ++ beBytes (u384D1 x).toNat 12 ++
        beBytes (u384D0 x).toNat 12 := by
    rw [List.append_assoc, ← hd1 24 (by decide) (le_refl 24)]
    exact beBytes_limb x hk (by omega)
  refine ⟨hd0 n, hd1 n, hd2 n, fun hn hn' => ?_⟩
  have hlow := hd2 36 (by decide) (le_refl 36)
  rw [List.append_assoc] at hlow
  rw [List.append_assoc, List.append_assoc, ← hlow]
  exact beBytes_limb x hn (by omega)

/-! ### The decoder and the encoder -/

theorem exec_u384FromBe (len : Byte) (bytes : List Byte) (s : State) :
    exec (.u384FromBe len bytes) s = decodeBe 48 len bytes s := rfl

/-- The length check comes first, whatever the bytes are (R172). -/
theorem exec_u384FromBe_of_long {len : Byte} (h : 48 < len.toNat) (bytes : List Byte) (s : State) :
    exec (.u384FromBe len bytes) s = .next (s.reply ⟨0x03, 0, 0, 0⟩) := by
  rw [exec_u384FromBe]
  exact (decodeBe_cases 48 len bytes s).1 h

theorem exec_u384FromBe_of_fits {len : Byte} (h : len.toNat ≤ 48) (bytes : List Byte) (s : State) :
    exec (.u384FromBe len bytes) s = .next (s.reply ⟨0x00, 0, zext384 (be bytes), 0⟩) := by
  rw [exec_u384FromBe]
  exact (decodeBe_cases 48 len bytes s).2 h

theorem exec_u384ToBe (x : U384) (len : Byte) (s : State) :
    exec (.u384ToBe x len) s = execU384ToBe x len s := rfl

section
variable {x : U384} {len : Byte}

theorem exec_u384ToBe_of_overflow (hlen : len.toNat ≤ 48) (hover : 256 ^ len.toNat ≤ x.toNat)
    (s : State) : exec (.u384ToBe x len) s = .next (s.reply ⟨0x02, 0, 0, 0⟩) := by
  rw [exec_u384ToBe, execU384ToBe, if_neg (Nat.not_lt.2 hlen), if_pos hover]
  exact raise_eq .overflowError s

theorem exec_u384ToBe_of_fits (hlen : len.toNat ≤ 48) (hfits : x.toNat < 256 ^ len.toNat)
    (s : State) : exec (.u384ToBe x len) s =
      .next (s.reply ⟨0x00, len, slotImage (beBytes x.toNat len.toNat), 0⟩) := by
  rw [exec_u384ToBe, execU384ToBe, if_neg (Nat.not_lt.2 hlen), if_neg (Nat.not_le.2 hfits)]
  exact complete_eq ..

end

/-- A lane from `n` on of the image of `n` bytes is zero (20_memory.md R40). -/
theorem lane_slotImage_above {s : List Byte} {n k : Nat} (h : s.length = n) (hk : n ≤ k) :
    (slotImage s).extractLsb' (8 * k) 8 = 0 := by
  refine extractLsb'_eq_zero_of_lt ((slotImage_lt h).trans_le ?_) 8
  rw [Nat.pow_mul]
  exact Nat.pow_le_pow_right (by decide) hk

/-- Settles O48: a value below `256 ^ 48` fits the slot, and each limb is a run of its bytes. -/
theorem u384FromBeDistributesBytesOverLimbs : Obligations.U384FromBeDistributesBytesOverLimbs := by
  refine ⟨fun f hop => decode_of_read_sequence (o := .u384FromBe) hop rfl,
    fun len bytes s hlong => exec_u384FromBe_of_long hlong bytes s,
    fun len bytes s hlen hlength => ⟨_, exec_u384FromBe_of_fits hlen bytes s, ?_⟩⟩
  rw [← hlength] at hlen ⊢
  have hlimb := limb_zext384_be hlen
  refine ⟨zext384_be_toNat hlen, ?_, hlimb 12, hlimb 24, ?_⟩
  · have hd0 := hlimb 0
    rwa [Nat.sub_zero, List.take_length] at hd0
  · have hd3 := hlimb 36
    rwa [Nat.sub_sub, Nat.sub_eq_zero_of_le hlen, List.drop_zero] at hd3

/-- Settles O49: the result is the slot image of the bytes of `x`, which split at the limbs. -/
theorem u384ToBeEmitsLimbsUnderTheGuard : Obligations.U384ToBeEmitsLimbsUnderTheGuard := by
  refine ⟨fun f hop => decode_of_op (o := .u384ToBe) hop, fun x len s =>
    ⟨fun hlong => exec_u384ToBe_of_long hlong x s,
      fun hlen hover => exec_u384ToBe_of_overflow hlen hover s, fun hlen hfits =>
      ⟨_, exec_u384ToBe_of_fits hlen hfits s, fun k hk => laneOf_slotImage_beBytes _ hlen hk,
        fun k hk _ => lane_slotImage_above (beBytes_length _ _) hk, ?_⟩⟩⟩
  rw [bytesOf_slotImage_of_length (beBytes_length _ _) hlen]
  obtain ⟨hd0, hd1, hd2, hd3⟩ := beBytes_limbs x len.toNat
  split_ifs with h36 h24 h12
  · exact hd3 h36.le hlen
  · exact hd2 h24.le (Nat.le_of_not_lt h36)
  · exact hd1 h12.le (Nat.le_of_not_lt h24)
  · exact hd0 (Nat.le_of_not_lt h12)

/-- Settles O50: decoder and encoder are the inverses of R9 around a slot, and the value of `n`
bytes passes the guard at `n`. -/
theorem u384RoundTripsAtEveryLength : Obligations.U384RoundTripsAtEveryLength := by
  refine ⟨fun len bytes s t hlen hlength => ⟨_, exec_u384FromBe_of_fits hlen bytes s, ?_⟩,
    fun m len s t hlen hfits => ⟨_, exec_u384ToBe_of_fits hlen hfits s, ?_⟩⟩
  · have hvalue : (zext384 (be bytes)).toNat = be bytes := zext384_be_toNat (hlength.trans_le hlen)
    have hfits : be bytes < 256 ^ len.toNat := be_lt_of_length_le hlength.le
    rw [exec_u384ToBe_of_fits hlen (hvalue.trans_lt hfits), hvalue, ← hlength, beBytes_be]
  · have hvalue : zext384 m.toNat = m := (BitVec.ofNat_toNat 384 m).trans (BitVec.setWidth_eq m)
    rw [exec_u384FromBe_of_fits hlen, be_bytesOf_slotImage_beBytes hlen hfits, hvalue]

end Sys2Proof.Proofs
end

section
/-! The series evaluator (spec 46_taylor.md R190 to R196): the ways one pass ends, the bounds on the
sum the loop ends with, and the answer of TAYLOR for each end of its loop. -/

namespace Sys2Proof.Proofs

open Sys2Proof.Machine Sys2Proof.Laws

set_option exponentiation.threshold 2000

/-! ### One pass; `pass_going` is the case in which the loop goes on -/

section
variable {n d : Nat} {σ : Series}

theorem pass_of_acc_zero (h : σ.acc = 0) : σ.pass n d = .ended σ.output :=
  if_pos h

/-- Everything a pass that ends the loop can do: it adds nothing, or it saturates (R193). -/
theorem pass_ended {output : Nat} (h : σ.pass n d = .ended output) :
    (σ.acc = 0 ∧ output = σ.output) ∨
      (σ.acc ≠ 0 ∧ σ.output + σ.acc < Config.B ∧ Config.SAT ≤ σ.acc * n ∧
        output = σ.output + σ.acc) := by
  unfold Series.pass at h
  split at h
  · next hacc => exact .inl ⟨hacc, (SeriesPass.ended.inj h).symm⟩
  next hacc =>
  simp only at h
  split at h
  · cases h
  next hsum =>
  split at h
  · next hsat => exact .inr ⟨hacc, Nat.lt_of_not_le hsum, hsat, (SeriesPass.ended.inj h).symm⟩
  · split at h <;> cases h

/-- Everything a pass that raises can raise: its dividend is below `2^128`, so of the checks of the
division only that of the divisor is left (R194). -/
theorem pass_raised {k : ErrorKind} (h : σ.pass n d = .raised k) :
    (k = .overflowError ∧ Config.B ≤ σ.output + σ.acc) ∨
      (k = .divisionError ∧ (d * σ.i = 0 ∨ 2 ^ 128 < d * σ.i)) := by
  unfold Series.pass at h
  split at h
  · cases h
  simp only at h
  split at h
  · next hsum => exact .inl ⟨(SeriesPass.raised.inj h).symm, hsum⟩
  split at h
  · cases h
  next hsat =>
  split at h
  · next hdivmod =>
    obtain rfl := SeriesPass.raised.inj h
    have hnext : σ.acc * n < 2 ^ 128 := Nat.lt_of_not_le hsat
    have hquotient := Nat.div_le_self (σ.acc * n) (d * σ.i)
    obtain ⟨hk, hzero | hlarge | hfull⟩ | ⟨-, -, -, hvalue⟩ := divmod_error hdivmod
    · exact .inr ⟨hk, .inl hzero⟩
    · exact .inr ⟨hk, .inr hlarge⟩
    · exact absurd (hfull.trans hquotient) hsat
    · exact absurd (hvalue.trans_lt hnext) (by decide)
  · cases h

/-- Where a pass that goes on leads: the divisor is at least 1, so `i` is below it and the quotient
is at most the dividend (R194). -/
theorem pass_going_bounds {σ' : Series} (h : σ.pass n d = .going σ') :
    d * σ.i ≤ 2 ^ 128 ∧ σ.i ≤ 2 ^ 128 ∧ σ'.i ≤ 2 ^ 128 + 1 ∧ σ'.acc < 2 ^ 128 ∧
      σ'.output < 2 ^ 252 := by
  obtain ⟨-, hsum, hnext, hpos, hdivisor, rfl⟩ := pass_going h
  have hi : σ.i ≤ 2 ^ 128 :=
    (Nat.le_mul_of_pos_left _ (Nat.pos_of_mul_pos_right hpos)).trans hdivisor
  exact ⟨hdivisor, hi, Nat.succ_le_succ hi, (Nat.div_le_self _ _).trans_lt hnext, hsum⟩

end

/-- Settles O54: the three ways a pass ends, and the product of two Uints. -/
theorem seriesWorkingVariablesStayBounded : Obligations.SeriesWorkingVariablesStayBounded := by
  refine ⟨fun factor denominator => ⟨rfl, id⟩, fun numerator denominator σ hn _ hacc =>
    ⟨?_, fun σ' => pass_going_bounds, fun output hrunning hpass => ?_, pass_of_acc_zero,
      fun k => pass_raised⟩⟩
  · calc σ.acc * numerator < 2 ^ 252 * 2 ^ 252 := Nat.mul_lt_mul'' hacc hn
      _ = 2 ^ 504 := by norm_num
  · obtain ⟨hzero, -⟩ | ⟨-, hsum, -, rfl⟩ := pass_ended hpass
    · exact absurd hzero hrunning
    · exact ⟨rfl, hsum⟩

/-! ### The loop -/

section
variable {n d : Nat}

/-- The sum of a loop that ends is at least its first term added, and below the ceiling (R196). -/
theorem evaluates_ok_bounds {σ : Series} {output : Nat} (h : Series.Evaluates n d σ (.ok output))
    (hσ : σ.output < 2 ^ 252) : σ.output + σ.acc ≤ output ∧ output < 2 ^ 252 := by
  generalize hr : Except.ok output = r at h
  induction h with
  | ended o i =>
    cases hr
    exact ⟨le_rfl, hσ⟩
  | sumOverflows | divisorFails => cases hr
  | saturates o i a _ hsum =>
    cases hr
    exact ⟨le_rfl, hsum⟩
  | passes o i a r _ hsum _ _ _ ih =>
    obtain ⟨hle, hlt⟩ := ih hsum hr
    exact ⟨(Nat.le_add_right _ _).trans hle, hlt⟩

/-- Saturation is one end of the loop, so it is the only one (R193). -/
theorem evaluates_iff_of_saturates {output i acc : Nat} (hacc : acc ≠ 0)
    (hsum : output + acc < 2 ^ 252) (hnext : 2 ^ 128 ≤ acc * n) (e : Except ErrorKind Nat) :
    Series.Evaluates n d ⟨output, i, acc⟩ e ↔ e = .ok (output + acc) := by
  have hsaturates : Series.Evaluates n d ⟨output, i, acc⟩ (.ok (output + acc)) :=
    .saturates _ _ _ hacc hsum hnext
  exact ⟨fun h => evaluates_unique h hsaturates, fun h => h ▸ hsaturates⟩

/-- With numerator 0 there is one pass: the term after it is 0 (R195). -/
theorem evaluates_of_numerator_zero {acc : Nat} (hacc : acc ≠ 0) (hsum : acc < 2 ^ 252)
    (hpos : 0 < d) (hle : d ≤ 2 ^ 128) : Series.Evaluates 0 d ⟨0, 1, acc⟩ (.ok acc) := by
  refine .passes 0 1 acc _ hacc ?_ ?_ ?_ ?_
  · rwa [Nat.zero_add]
  · rw [Nat.mul_zero]
    exact Nat.two_pow_pos 128
  · rw [Nat.mul_one]
    exact ⟨hpos, hle⟩
  · rw [Nat.zero_add, Nat.mul_zero, Nat.zero_div]
    exact .ended acc 2

/-- The loop on fuel ends as the relation says, for the fuel is never spent (R192). -/
theorem series_run_eq_some_iff {f : Nat} (h : f * d < 2 ^ 252) (e : Except ErrorKind Nat) :
    Series.run n d (Series.fuel n d) (Series.start f d) = some e ↔
      Series.Evaluates n d ⟨0, 1, f * d⟩ e := by
  refine ⟨series_run_evaluates _ _, fun heval => ?_⟩
  obtain ⟨e', hrun⟩ := Option.ne_none_iff_exists'.1 (series_run_answers f n d h)
  rw [hrun, evaluates_unique (series_run_evaluates _ _ hrun) heval]

theorem existsUnique_evaluates {f : Nat} (h : f * d < 2 ^ 252) :
    ∃! e, Series.Evaluates n d ⟨0, 1, f * d⟩ e := by
  obtain ⟨e, hrun⟩ := Option.ne_none_iff_exists'.1 (series_run_answers f n d h)
  have heval := (series_run_eq_some_iff h e).1 hrun
  exact ⟨e, heval, fun e' heval' => evaluates_unique heval' heval⟩

end

/-! ### The closing division -/

section
variable {output denominator : Nat}

theorem taylorClose_of_bad_division (hout : output < 2 ^ 252)
    (hbad : denominator = 0 ∨ 2 ^ 128 < denominator ∨ 2 ^ 128 ≤ output / denominator) (s : State) :
    taylorClose output denominator s = .next (s.reply ⟨0x01, 0, 0, 0⟩) := by
  have hdivmod : divmod (2 ^ 128) output denominator = .error .divisionError := by
    by_cases hdivisor : denominator = 0 ∨ 2 ^ 128 < denominator
    · exact divmod_of_bad_divisor hdivisor
    · exact divmod_of_large_quotient (by omega) (by omega) hout (by omega)
  simp only [taylorClose, hdivmod]
  exact raise_eq .divisionError s

theorem taylorClose_of_good_division (hout : output < 2 ^ 252) (hpos : 0 < denominator)
    (hle : denominator ≤ 2 ^ 128) (hquotient : output / denominator < 2 ^ 128) (s : State) :
    taylorClose output denominator s =
      .next (s.reply ⟨0x00, 0, BitVec.ofNat 384 (output / denominator), 0⟩) := by
  simp only [taylorClose, divmod_eq hpos hle hout hquotient]
  exact complete_eq ..

end

/-! ### The command -/

theorem decode_of_taylor_op {f : CommandFrame} (hop : f.op = Opcode.taylor.byte) :
    decode f =
      .ok (.taylor (f.extractLsb' 16 256) (f.extractLsb' 400 256) (f.extractLsb' 784 256)) := by
  rw [decode_of_op hop, ← uintOf_slotA, ← uintOf_slotB, ← uintOf_slotC]
  rfl

theorem exec_taylor (factor numerator denominator : UintField) (s : State) :
    exec (.taylor factor numerator denominator) s = execTaylor factor numerator denominator s := rfl

/-- The operands that pass check (1) of R190. -/
structure InDomain (factor numerator denominator : UintField) : Prop where
  factor_lt : factor.toNat < 2 ^ 252
  numerator_lt : numerator.toNat < 2 ^ 252
  denominator_lt : denominator.toNat < 2 ^ 252

theorem any_outOfDomain_iff (a b c : UintField) :
    (outOfDomain a || outOfDomain b || outOfDomain c) = true ↔
      2 ^ 252 ≤ a.toNat ∨ 2 ^ 252 ≤ b.toNat ∨ 2 ^ 252 ≤ c.toNat := by
  rw [Bool.or_eq_true, Bool.or_eq_true, outOfDomain_iff, outOfDomain_iff, outOfDomain_iff, or_assoc]

section
variable {factor numerator denominator : UintField}

theorem exec_taylor_of_outOfDomain
    (h : 2 ^ 252 ≤ factor.toNat ∨ 2 ^ 252 ≤ numerator.toNat ∨ 2 ^ 252 ≤ denominator.toNat)
    (s : State) :
    exec (.taylor factor numerator denominator) s = .next (s.reply ⟨0x03, 0, 0, 0⟩) := by
  rw [exec_taylor, execTaylor, if_pos ((any_outOfDomain_iff _ _ _).2 h)]
  exact raise_eq .valueError s

theorem InDomain.not_any_outOfDomain (h : InDomain factor numerator denominator) :
    ¬(outOfDomain factor || outOfDomain numerator || outOfDomain denominator) = true := by
  rw [any_outOfDomain_iff]
  obtain ⟨hf, hn, hd⟩ := h
  omega

theorem exec_taylor_of_overflow (hdomain : InDomain factor numerator denominator)
    (hover : 2 ^ 252 ≤ factor.toNat * denominator.toNat) (s : State) :
    exec (.taylor factor numerator denominator) s = .next (s.reply ⟨0x02, 0, 0, 0⟩) := by
  rw [exec_taylor, execTaylor, if_neg hdomain.not_any_outOfDomain, if_pos hover]
  exact raise_eq .overflowError s

section
variable (hdomain : InDomain factor numerator denominator)
  (hproduct : factor.toNat * denominator.toNat < 2 ^ 252)
include hdomain hproduct

theorem exec_taylor_of_raises {k : ErrorKind}
    (heval : Series.Evaluates numerator.toNat denominator.toNat
      ⟨0, 1, factor.toNat * denominator.toNat⟩ (.error k)) (s : State) :
    exec (.taylor factor numerator denominator) s = .next (s.reply ⟨k.code, 0, 0, 0⟩) := by
  rw [exec_taylor, execTaylor, if_neg hdomain.not_any_outOfDomain, if_neg (Nat.not_le.2 hproduct),
    (series_run_eq_some_iff hproduct _).2 heval]
  exact raise_eq k s

section
variable {output : Nat} (heval : Series.Evaluates numerator.toNat denominator.toNat
  ⟨0, 1, factor.toNat * denominator.toNat⟩ (.ok output))
include heval

theorem exec_taylor_of_ends (s : State) :
    exec (.taylor factor numerator denominator) s = taylorClose output denominator.toNat s := by
  rw [exec_taylor, execTaylor, if_neg hdomain.not_any_outOfDomain, if_neg (Nat.not_le.2 hproduct),
    (series_run_eq_some_iff hproduct _).2 heval]

theorem exec_taylor_of_bad_close
    (hbad : denominator.toNat = 0 ∨ 2 ^ 128 < denominator.toNat ∨
      2 ^ 128 ≤ output / denominator.toNat) (s : State) :
    exec (.taylor factor numerator denominator) s = .next (s.reply ⟨0x01, 0, 0, 0⟩) := by
  obtain ⟨-, hout⟩ := evaluates_ok_bounds heval (Nat.two_pow_pos 252)
  rw [exec_taylor_of_ends hdomain hproduct heval, taylorClose_of_bad_division hout hbad]

theorem exec_taylor_of_good_close (hpos : 0 < denominator.toNat) (hle : denominator.toNat ≤ 2 ^ 128)
    (hquotient : output / denominator.toNat < 2 ^ 128) (s : State) :
    exec (.taylor factor numerator denominator) s =
      .next (s.reply ⟨0x00, 0, BitVec.ofNat 384 (output / denominator.toNat), 0⟩) := by
  obtain ⟨-, hout⟩ := evaluates_ok_bounds heval (Nat.two_pow_pos 252)
  rw [exec_taylor_of_ends hdomain hproduct heval,
    taylorClose_of_good_division hout hpos hle hquotient]

end

/-- When the loop ends with its first term, the closing division gives the factor back. -/
theorem exec_taylor_eq_factor
    (heval : Series.Evaluates numerator.toNat denominator.toNat
      ⟨0, 1, factor.toNat * denominator.toNat⟩ (.ok (factor.toNat * denominator.toNat)))
    (hpos : 0 < denominator.toNat) (hle : denominator.toNat ≤ 2 ^ 128)
    (hfactor : factor.toNat < 2 ^ 128) (s : State) :
    exec (.taylor factor numerator denominator) s =
      .next (s.reply ⟨0x00, 0, BitVec.ofNat 384 factor.toNat, 0⟩) := by
  have hquotient := Nat.mul_div_cancel factor.toNat hpos
  have hanswer := exec_taylor_of_good_close hdomain hproduct heval hpos hle
    (hquotient.trans_lt hfactor) s
  rwa [hquotient] at hanswer

end

/-- With factor or denominator 0 check (2) passes and the loop does not run (R195). -/
theorem evaluates_of_zero_operand (h : factor.toNat = 0 ∨ denominator.toNat = 0) :
    factor.toNat * denominator.toNat < 2 ^ 252 ∧
      Series.Evaluates numerator.toNat denominator.toNat
        ⟨0, 1, factor.toNat * denominator.toNat⟩ (.ok (factor.toNat * denominator.toNat)) := by
  rw [Nat.mul_eq_zero.2 h]
  exact ⟨Nat.two_pow_pos 252, .ended 0 1⟩

end

/-- Settles O51: the checks in order, and the loop and its closing division as the relation says. -/
theorem taylorFollowsItsLoop : Obligations.TaylorFollowsItsLoop := by
  refine ⟨fun f hop => decode_of_taylor_op hop, fun factor numerator denominator s =>
    ⟨fun hout => exec_taylor_of_outOfDomain hout s, fun hf hn hd => ?_⟩⟩
  have hdomain : InDomain factor numerator denominator := ⟨hf, hn, hd⟩
  exact ⟨fun hover => exec_taylor_of_overflow hdomain hover s, fun hproduct =>
    ⟨existsUnique_evaluates hproduct,
      fun k heval => exec_taylor_of_raises hdomain hproduct heval s,
      fun output heval => ⟨fun hbad => exec_taylor_of_bad_close hdomain hproduct heval hbad s,
        fun hpos hle hquotient =>
          exec_taylor_of_good_close hdomain hproduct heval hpos hle hquotient s⟩⟩⟩

/-- Settles O52: with factor or denominator 0 the loop does not run, with numerator 0 it runs once;
each time it ends with `factor * denominator`. -/
theorem taylorOfZeroOperands : Obligations.TaylorOfZeroOperands := by
  intro factor numerator denominator s hf hn hd
  have hdomain : InDomain factor numerator denominator := ⟨hf, hn, hd⟩
  refine ⟨fun hzero hpos hle => ?_, fun hzero hlarge => ?_, fun hzero => ?_,
    fun hzero hfpos hflt hpos hle hproduct => ?_⟩
  · obtain ⟨hproduct, heval⟩ := evaluates_of_zero_operand (numerator := numerator) (.inl hzero)
    have hflt : factor.toNat < 2 ^ 128 := hzero ▸ Nat.two_pow_pos 128
    have hanswer := exec_taylor_eq_factor hdomain hproduct heval hpos hle hflt s
    rwa [hzero] at hanswer
  · obtain ⟨hproduct, heval⟩ := evaluates_of_zero_operand (numerator := numerator) (.inl hzero)
    exact exec_taylor_of_bad_close hdomain hproduct heval (.inr (.inl hlarge)) s
  · obtain ⟨hproduct, heval⟩ := evaluates_of_zero_operand (numerator := numerator) (.inr hzero)
    exact exec_taylor_of_bad_close hdomain hproduct heval (.inl hzero) s
  · refine exec_taylor_eq_factor hdomain hproduct ?_ hpos hle hflt s
    rw [hzero]
    exact evaluates_of_numerator_zero (Nat.mul_pos hfpos hpos).ne' hproduct hpos hle

/-- Settles O53: the sum of a first pass that saturates is `factor * denominator`. -/
theorem taylorSaturationKeepsTheLastTerm : Obligations.TaylorSaturationKeepsTheLastTerm := by
  refine ⟨fun _ _ _ _ _ hacc hsum hnext => evaluates_iff_of_saturates hacc hsum hnext,
    fun factor numerator denominator s hflt hfpos hpos hle hn hproduct hnext => ?_⟩
  have hdomain : InDomain factor numerator denominator :=
    ⟨hflt.trans (by decide), hn, hle.trans_lt (by decide)⟩
  refine exec_taylor_eq_factor hdomain hproduct ?_ hpos hle hflt s
  refine (evaluates_iff_of_saturates (Nat.mul_pos hfpos hpos).ne' ?_ hnext _).2 ?_
  · rwa [Nat.zero_add]
  · rw [Nat.zero_add]

/-- Settles O55: the first term is `factor * denominator`, so the quotient is at least `factor`. -/
theorem taylorOfLargeFactorFaults : Obligations.TaylorOfLargeFactorFaults := by
  intro factor numerator denominator s output hf hn hd hproduct heval
  obtain ⟨hsum, -⟩ := evaluates_ok_bounds heval (Nat.two_pow_pos 252)
  have hge : factor.toNat * denominator.toNat ≤ output := (Nat.le_add_left _ _).trans hsum
  refine ⟨hge, fun hpos _ hlarge => ?_⟩
  have hquotient : factor.toNat ≤ output / denominator.toNat := (Nat.le_div_iff_mul_le hpos).2 hge
  exact exec_taylor_of_bad_close ⟨hf, hn, hd⟩ hproduct heval
    (.inr (.inr (hlarge.trans hquotient))) s

end Sys2Proof.Proofs
end

section
/-! Reset, the waiting block and the host's use of it (spec 70_reset_and_hazards.md R230, R231,
R237, R239; log entries 3 and 6): every command is answered, an answer depends on its frame alone,
and a host program takes every answer it causes away again. -/

namespace Sys2Proof.Proofs

open Sys2Proof.Machine Sys2Proof.Laws

/-- Settles O7: a step with an empty queue. -/
theorem idleBlockWaits : Obligations.IdleBlockWaits := step_idle

/-- Settles O15: each meaning ends in one of the two ways, and either returns one response. -/
theorem everyCommandIsAnswered : Obligations.EveryCommandIsAnswered := by
  intro i s
  obtain ⟨r, hreply⟩ := (exec_endsOneWay i).reply
  exact ⟨r, hreply s⟩

/-- Settles O56: after a reset the queue holds nothing but the new frame, whose answer is the one it
gets from every state. -/
theorem resetAbandonsUnansweredCommands : Obligations.ResetAbandonsUnansweredCommands := by
  intro s f
  obtain ⟨p, hp⟩ := step_appends_one_response f
  exact ⟨applyReset_commands s, applyReset_responses s, p, hp [] [], hp [] s.responses⟩

/-- One transaction on a block with nothing at its interface leaves it so (R239). -/
theorem transact_empty (f : CommandFrame) : ∃ r, transact f ⟨[], []⟩ = some (r, ⟨[], []⟩) := by
  obtain ⟨p, hp⟩ := step_appends_one_response f
  exact ⟨Response.unpack p, transact_of_step (hp [] [])⟩

/-- A host program leaves the block empty, by induction on its commands: each ends the program
before or after its own transaction, or leaves an empty block to the rest. -/
theorem runHostProgram_leaves_empty (p : List HostCommand) (done : List Response) :
    (runHostProgram p done ⟨[], []⟩).2.Idle ∧ (runHostProgram p done ⟨[], []⟩).1 ≠ .noAnswer := by
  induction p generalizing done with
  | nil => exact ⟨⟨rfl, rfl⟩, nofun⟩
  | cons c p ih =>
    cases hf : c.frame done with
    | none =>
      rw [runHostProgram_badReference p hf]
      exact ⟨⟨rfl, rfl⟩, nofun⟩
    | some f =>
      obtain ⟨r, hr⟩ := transact_empty f
      by_cases hok : r.status = statusOk
      · rw [runHostProgram_ok p hf hr hok]
        exact ih _
      · rw [runHostProgram_error p hf hr hok]
        exact ⟨⟨rfl, rfl⟩, nofun⟩

/-- Settles O57: an idle block is the empty one. -/
theorem hostProgramLeavesNothingBehind : Obligations.HostProgramLeavesNothingBehind := by
  intro p s hidle
  obtain rfl := eq_of_idle hidle
  exact runHostProgram_leaves_empty p []

end Sys2Proof.Proofs
end

section
/-! The error kinds (spec 60_exceptions.md R200 to R211): which kind each command raises, and when.
`Faults` is the table of all causes, `exec_raises_iff` ties it to `exec`, and the statements on the
single kinds are its columns. -/

namespace Sys2Proof.Proofs

open Sys2Proof.Machine Sys2Proof.Laws

set_option exponentiation.threshold 2000

/-! ### Errors and successes are told apart -/

/-- Settles O16: a step ends in one of the two ways, with success or by raising a kind. -/
theorem errorResponseCarriesOnlyItsStatus : Obligations.ErrorResponseCarriesOnlyItsStatus := by
  refine ⟨⟨rfl, rfl, rfl, rfl, rfl⟩, fun f cs rs => ?_⟩
  obtain ⟨m, ⟨r0, r1, rlen, hm⟩ | ⟨k, hm⟩, hstep⟩ := step_endsOneWay f
  · exact ⟨⟨0x00, rlen, r0, r1⟩, (hstep cs rs).trans (hm ⟨cs, rs⟩), .inl rfl⟩
  · exact ⟨⟨k.code, 0, 0, 0⟩, (hstep cs rs).trans (hm ⟨cs, rs⟩), .inr ⟨k, rfl⟩⟩

theorem code_injective : Function.Injective ErrorKind.code := by
  intro j k
  cases j <;> cases k <;> decide

theorem raise_eq_raise_iff (j k : ErrorKind) (s : State) : raise j s = raise k s ↔ k = j := by
  rw [raise_eq, raise_eq, Host.Outcome.next.injEq, reply_eq_iff, Response.mk.injEq,
    code_injective.eq_iff]
  simp [eq_comm]

theorem complete_ne_raise {s : State} {r0 r1 : Slot} {rlen : Byte} {k : ErrorKind} :
    complete s r0 r1 rlen ≠ raise k s := by
  rw [complete_eq, raise_eq, Ne, Host.Outcome.next.injEq, reply_eq_iff, Response.mk.injEq]
  exact fun ⟨hstatus, _⟩ => errorCode_ne_ok k hstatus.symm

/-! ### The kind raised, check by check -/

section
variable {m : Host.Outcome State Fault Refusal} {j k : ErrorKind} {s : State} {p q : Prop}
  [Decidable p]

/-- The first check of a command raises its own kind; past it the rest decides (R211). -/
theorem check_then_raises_iff {passed rest : Prop} (hfails : p ↔ q) (hpasses : ¬q ↔ passed)
    (hrest : m = raise k s ↔ rest) :
    (if p then raise j s else m) = raise k s ↔ (k = j ∧ q) ∨ (passed ∧ rest) := by
  rw [← hpasses, ← hfails, ← hrest]
  by_cases h : p
  · simp [h, raise_eq_raise_iff]
  · simp [h]

/-- A command whose only check is this one. -/
theorem check_raises_iff (hfails : p ↔ q) (hrest : m ≠ raise k s) :
    (if p then raise j s else m) = raise k s ↔ k = j ∧ q := by
  rw [check_then_raises_iff hfails Iff.rfl (iff_false_intro hrest), and_false, or_false]

end

/-- The choice between two results raises nothing. -/
theorem select_ne_raise {p : Prop} [Decidable p] {s : State} {x y : Slot} {k : ErrorKind} :
    (if p then complete s x else complete s y) ≠ raise k s := by
  split
  · exact complete_ne_raise
  · exact complete_ne_raise

/-- If `causes` says when each kind is raised, and success is all that is left, then nothing else
raises the kinds. -/
theorem raises_iff_of_total {m : Host.Outcome State Fault Refusal} {s : State}
    {causes : ErrorKind → Prop} (hraises : ∀ j, causes j → m = raise j s)
    (htotal : (∃ j, causes j) ∨ ∃ r0 r1 rlen, m = complete s r0 r1 rlen) (k : ErrorKind) :
    m = raise k s ↔ causes k := by
  refine ⟨fun hm => ?_, hraises k⟩
  obtain ⟨j, hj⟩ | ⟨r0, r1, rlen, hcomplete⟩ := htotal
  · obtain rfl := (raise_eq_raise_iff j k s).1 ((hraises j hj).symm.trans hm)
    exact hj
  · exact absurd (hcomplete.symm.trans hm) complete_ne_raise

/-! ### The divmod units -/

/-- The causes of each kind at a divmod unit with bound `bound` (R202, R209). -/
def DivmodFaults (bound value div : Nat) (k : ErrorKind) : Prop :=
  (k = .divisionError ∧ (div = 0 ∨ bound < div ∨ (value < 2 ^ 252 ∧ bound ≤ value / div))) ∨
  (k = .valueError ∧ 0 < div ∧ div ≤ bound ∧ 2 ^ 252 ≤ value)

theorem divmodCommand_raises_iff (bound : Nat) (value div : UintField) (s : State) (k : ErrorKind) :
    divmodCommand bound value div s = raise k s ↔ DivmodFaults bound value.toNat div.toNat k := by
  obtain ⟨hdivisor, hvalue, hquotient, hok⟩ := divmodCommand_cases bound value div s
  refine raises_iff_of_total (fun j hj => ?_) ?_ k
  · obtain ⟨rfl, hzero | hlarge | ⟨hlt, hq⟩⟩ | ⟨rfl, hpos, hle, hge⟩ := hj
    · exact hdivisor (.inl hzero)
    · exact hdivisor (.inr hlarge)
    · by_cases hbad : div.toNat = 0 ∨ bound < div.toNat
      · exact hdivisor hbad
      · exact hquotient (by omega) (by omega) hlt hq
    · exact hvalue hpos hle hge
  · by_cases hdiv : 0 < div.toNat ∧ div.toNat ≤ bound
    · obtain ⟨hpos, hle⟩ := hdiv
      by_cases hlt : value.toNat < 2 ^ 252
      · by_cases hq : value.toNat / div.toNat < bound
        · exact .inr ⟨_, _, _, hok hpos hle hlt hq⟩
        · exact .inl ⟨_, .inl ⟨rfl, .inr (.inr ⟨hlt, Nat.le_of_not_lt hq⟩)⟩⟩
      · exact .inl ⟨_, .inr ⟨rfl, hpos, hle, Nat.le_of_not_lt hlt⟩⟩
    · exact .inl ⟨_, .inl ⟨rfl, by omega⟩⟩

/-! ### TAYLOR -/

/-- The closing division of TAYLOR fails on its divisor or on its quotient (R202). -/
def BadClose (output denominator : Nat) : Prop :=
  denominator = 0 ∨ 2 ^ 128 < denominator ∨ 2 ^ 128 ≤ output / denominator

/-- The causes of each kind at TAYLOR, in the order of its checks (46_taylor.md R190). -/
def TaylorFaults (factor numerator denominator : UintField) (k : ErrorKind) : Prop :=
  (k = .valueError ∧
    (2 ^ 252 ≤ factor.toNat ∨ 2 ^ 252 ≤ numerator.toNat ∨ 2 ^ 252 ≤ denominator.toNat)) ∨
  (InDomain factor numerator denominator ∧
    ((k = .overflowError ∧ 2 ^ 252 ≤ factor.toNat * denominator.toNat) ∨
      (factor.toNat * denominator.toNat < 2 ^ 252 ∧
        (Series.Evaluates numerator.toNat denominator.toNat
            ⟨0, 1, factor.toNat * denominator.toNat⟩ (.error k) ∨
          (k = .divisionError ∧ ∃ output, Series.Evaluates numerator.toNat denominator.toNat
              ⟨0, 1, factor.toNat * denominator.toNat⟩ (.ok output) ∧
            BadClose output denominator.toNat)))))

/-- The checks of TAYLOR, its loop and its closing division leave success as the only other end. -/
theorem exec_taylor_raises_iff (factor numerator denominator : UintField) (s : State)
    (k : ErrorKind) : exec (.taylor factor numerator denominator) s = raise k s ↔
      TaylorFaults factor numerator denominator k := by
  refine raises_iff_of_total (fun j hj => ?_) ?_ k
  · obtain ⟨rfl, hout⟩ | ⟨hdomain, ⟨rfl, hover⟩ |
      ⟨hproduct, heval | ⟨rfl, output, heval, hbad⟩⟩⟩ := hj
    · exact exec_taylor_of_outOfDomain hout s
    · exact exec_taylor_of_overflow hdomain hover s
    · exact exec_taylor_of_raises hdomain hproduct heval s
    · exact exec_taylor_of_bad_close hdomain hproduct heval hbad s
  · by_cases hout : 2 ^ 252 ≤ factor.toNat ∨ 2 ^ 252 ≤ numerator.toNat ∨
      2 ^ 252 ≤ denominator.toNat
    · exact .inl ⟨_, .inl ⟨rfl, hout⟩⟩
    have hdomain : InDomain factor numerator denominator := ⟨by omega, by omega, by omega⟩
    by_cases hover : 2 ^ 252 ≤ factor.toNat * denominator.toNat
    · exact .inl ⟨_, .inr ⟨hdomain, .inl ⟨rfl, hover⟩⟩⟩
    have hproduct := Nat.lt_of_not_le hover
    obtain ⟨e, heval, -⟩ := existsUnique_evaluates (n := numerator.toNat) hproduct
    cases e with
    | error j => exact .inl ⟨j, .inr ⟨hdomain, .inr ⟨hproduct, .inl heval⟩⟩⟩
    | ok output =>
      by_cases hbad : BadClose output denominator.toNat
      · exact .inl ⟨_, .inr ⟨hdomain, .inr ⟨hproduct, .inr ⟨rfl, output, heval, hbad⟩⟩⟩⟩
      · unfold BadClose at hbad
        exact .inr ⟨_, _, _, exec_taylor_of_good_close hdomain hproduct heval (by omega) (by omega)
          (by omega) s⟩

/-- The loop raises the kinds of its checks (3) and (4) and no other (46_taylor.md R190). -/
theorem evaluates_error_kind {n d : Nat} {σ : Series} {k : ErrorKind}
    (h : Series.Evaluates n d σ (.error k)) : k = .overflowError ∨ k = .divisionError := by
  generalize hr : Except.error k = r at h
  induction h with
  | ended | saturates => cases hr
  | sumOverflows =>
    cases hr
    exact .inl rfl
  | divisorFails =>
    cases hr
    exact .inr rfl
  | passes o i a r _ _ _ _ _ ih => exact ih hr

theorem inDomain_iff (factor numerator denominator : UintField) :
    InDomain factor numerator denominator ↔
      factor.toNat < 2 ^ 252 ∧ numerator.toNat < 2 ^ 252 ∧ denominator.toNat < 2 ^ 252 :=
  ⟨fun ⟨hf, hn, hd⟩ => ⟨hf, hn, hd⟩, fun ⟨hf, hn, hd⟩ => ⟨hf, hn, hd⟩⟩

section
variable (factor numerator denominator : UintField)

theorem taylorFaults_divisionError_iff :
    TaylorFaults factor numerator denominator .divisionError ↔
      factor.toNat < 2 ^ 252 ∧ numerator.toNat < 2 ^ 252 ∧ denominator.toNat < 2 ^ 252 ∧
      factor.toNat * denominator.toNat < 2 ^ 252 ∧
      (Series.Evaluates numerator.toNat denominator.toNat
          ⟨0, 1, factor.toNat * denominator.toNat⟩ (.error .divisionError) ∨
        ∃ output, Series.Evaluates numerator.toNat denominator.toNat
            ⟨0, 1, factor.toNat * denominator.toNat⟩ (.ok output) ∧
          BadClose output denominator.toNat) := by
  simp only [TaylorFaults, reduceCtorEq, false_and, false_or, true_and, inDomain_iff, and_assoc]

/-- A product that overflows leaves no loop to ask about. -/
theorem taylorFaults_overflowError_iff :
    TaylorFaults factor numerator denominator .overflowError ↔
      factor.toNat < 2 ^ 252 ∧ numerator.toNat < 2 ^ 252 ∧ denominator.toNat < 2 ^ 252 ∧
      (2 ^ 252 ≤ factor.toNat * denominator.toNat ∨
        Series.Evaluates numerator.toNat denominator.toNat
          ⟨0, 1, factor.toNat * denominator.toNat⟩ (.error .overflowError)) := by
  simp only [TaylorFaults, reduceCtorEq, false_and, false_or, or_false, true_and, inDomain_iff,
    and_assoc]
  refine and_congr_right' (and_congr_right' (and_congr_right' (or_congr_right' fun hproduct => ?_)))
  exact and_iff_right (Nat.lt_of_not_le hproduct)

/-- A kind that neither a product nor a division raises comes from the domain check alone. -/
theorem taylorFaults_iff_of_ne {k : ErrorKind} (hover : k ≠ .overflowError)
    (hdivision : k ≠ .divisionError) :
    TaylorFaults factor numerator denominator k ↔ k = .valueError ∧
      (2 ^ 252 ≤ factor.toNat ∨ 2 ^ 252 ≤ numerator.toNat ∨ 2 ^ 252 ≤ denominator.toNat) := by
  refine ⟨?_, .inl⟩
  rintro (hvalue | ⟨-, ⟨hk, -⟩ | ⟨-, heval | ⟨hk, -⟩⟩⟩)
  · exact hvalue
  · exact absurd hk hover
  · exact ((evaluates_error_kind heval).elim hover hdivision).elim
  · exact absurd hk hdivision

end

/-! ### The table of causes -/

/-- The causes of each kind at each command, every earlier check having passed (R202 to R205, R208,
R209, R211). The commands that are not named raise nothing. -/
def Faults (k : ErrorKind) : Instr → Prop
  | .divmod128 value div => DivmodFaults (2 ^ 128) value.toNat div.toNat k
  | .divmod192 value div => DivmodFaults (2 ^ 192) value.toNat div.toNat k
  | .umin a b | .umax a b => k = .valueError ∧ (2 ^ 252 ≤ a.toNat ∨ 2 ^ 252 ≤ b.toNat)
  | .ceil32 value => (k = .valueError ∧ 2 ^ 252 ≤ value.toNat) ∨
      (value.toNat < 2 ^ 252 ∧ k = .overflowError ∧ 2 ^ 252 - 32 < value.toNat)
  | .bitlen value => k = .outOfRangeError ∧ 2 ^ 252 ≤ value.toNat
  | .uintFromBe len _ => k = .valueError ∧ 31 < len.toNat
  | .u64FromBe len _ => k = .valueError ∧ 8 < len.toNat
  | .u256ToBe20 m => k = .overflowError ∧ 2 ^ 32 - 1 < m.toNat / 2 ^ 128
  | .u256FromBe len _ => k = .valueError ∧ 32 < len.toNat
  | .u256Add a b => k = .overflowError ∧ 2 ^ 256 ≤ a.toNat + b.toNat
  | .u256Sub a b => k = .overflowError ∧ a.toNat < b.toNat
  | .u256Mul a b => k = .overflowError ∧ 2 ^ 256 ≤ a.toNat * b.toNat
  | .u256FromUint v => k = .valueError ∧ 2 ^ 252 ≤ v.toNat
  | .u256ToUint m => k = .valueError ∧ 2 ^ 252 ≤ m.toNat
  | .u384FromBe len _ => k = .valueError ∧ 48 < len.toNat
  | .u384ToBe x len => (k = .valueError ∧ 48 < len.toNat) ∨
      (len.toNat ≤ 48 ∧ k = .overflowError ∧ 256 ^ len.toNat ≤ x.toNat)
  | .taylor factor numerator denominator => TaylorFaults factor numerator denominator k
  | _ => False

/-- The table says exactly when a command raises a kind. -/
theorem exec_raises_iff (i : Instr) (k : ErrorKind) (s : State) :
    exec i s = raise k s ↔ Faults k i := by
  cases i with
  | divmod128 value div | divmod192 value div => exact divmodCommand_raises_iff _ value div s k
  | umin a b | umax a b =>
    exact check_raises_iff (either_outOfDomain_iff a b) select_ne_raise
  | ceil32 value =>
    exact check_then_raises_iff (outOfDomain_iff value) Nat.not_le
      (check_raises_iff (B_le_ceil32_iff _) complete_ne_raise)
  | bitlen value => exact check_raises_iff (BLMAX_lt_bitLength_iff value) complete_ne_raise
  | uintFromBe | u64FromBe | u256FromBe | u384FromBe =>
    exact check_raises_iff Iff.rfl complete_ne_raise
  | u256ToBe20 m =>
    exact check_raises_iff (by rw [u256High_toNat]) complete_ne_raise
  | u256Add a b => exact check_raises_iff (addOverflows_iff a b) complete_ne_raise
  | u256Sub a b => exact check_raises_iff (subUnderflows_iff a b) complete_ne_raise
  | u256Mul a b => exact check_raises_iff (mulOverflows_iff a b) complete_ne_raise
  | u256FromUint v => exact check_raises_iff (outOfDomain_iff v) complete_ne_raise
  | u256ToUint m => exact check_raises_iff Iff.rfl complete_ne_raise
  | u384ToBe x len =>
    exact check_then_raises_iff Iff.rfl Nat.not_lt
      (check_raises_iff Iff.rfl complete_ne_raise)
  | taylor factor numerator denominator =>
    exact exec_taylor_raises_iff factor numerator denominator s k
  | u256Min | u256Max => exact iff_false_intro select_ne_raise
  | u256FromBe32 | u256ToBe32 | u256FromLe32 | u256ToLe32 | u256FromBe20 | u256Addc | u256Le
  | u256Eq | u384Iszero | u384Isone | u384Eq => exact iff_false_intro complete_ne_raise

/-- The table, for the response that reports a kind (R204). -/
theorem exec_error_iff (i : Instr) (k : ErrorKind) (s : State) :
    exec i s = .next (s.reply ⟨k.code, 0, 0, 0⟩) ↔ Faults k i := by
  rw [← raise_eq, exec_raises_iff]

/-! ### The columns of the table

With the kind fixed, a clause of the table that gives another kind is false, and one that gives this
kind is its condition. -/

/-- Settles O17: the column of DivisionError. -/
theorem divisionErrorCauses : Obligations.DivisionErrorCauses := by
  intro i s
  refine (exec_error_iff i .divisionError s).trans ?_
  cases i with
  | divmod128 | divmod192 => simp [Faults, DivmodFaults]
  | taylor factor numerator denominator =>
    exact taylorFaults_divisionError_iff factor numerator denominator
  | _ => simp [Faults]

/-- Settles O18: the column of OverflowError. -/
theorem overflowErrorCauses : Obligations.OverflowErrorCauses := by
  intro i s
  refine (exec_error_iff i .overflowError s).trans ?_
  cases i with
  | divmod128 | divmod192 => simp [Faults, DivmodFaults]
  | taylor factor numerator denominator =>
    exact taylorFaults_overflowError_iff factor numerator denominator
  | _ => simp [Faults]

/-- Settles O19: the column of ValueError. -/
theorem valueErrorCauses : Obligations.ValueErrorCauses := by
  intro i s
  refine (exec_error_iff i .valueError s).trans ?_
  cases i with
  | divmod128 | divmod192 => simp [Faults, DivmodFaults]
  | taylor factor numerator denominator =>
    have hcolumn :=
      taylorFaults_iff_of_ne factor numerator denominator (k := .valueError) nofun nofun
    exact hcolumn.trans (and_iff_right rfl)
  | _ => simp [Faults]

/-- Settles O20: the column of OutOfRangeError, which has one entry. -/
theorem outOfRangeErrorOnlyFromBitlen : Obligations.OutOfRangeErrorOnlyFromBitlen := by
  intro i s
  refine (exec_error_iff i .outOfRangeError s).trans ?_
  cases i with
  | divmod128 | divmod192 => simp [Faults, DivmodFaults]
  | taylor => simp [Faults, taylorFaults_iff_of_ne]
  | _ => simp [Faults]

end Sys2Proof.Proofs
end
